-- ==== Sys2Proof/Word.lean ====
section
/-!
DEFINITION. The machine's words and the bit fields an instruction word is cut into.
-/

namespace Sys2Proof

/-- A register, the program counter, an address, an instruction: 32 bits (00_scope.md R6, XLEN and ILEN). -/
abbrev Word := BitVec 32

/-- One byte of the memory list. -/
abbrev Byte := BitVec 8

/-- A register index: 5 bits, so every index is in range (10_state.md R10). -/
abbrev RegIdx := BitVec 5

/-- The 16-bit offset or immediate field (30_encoding.md R42). -/
abbrev Offset := BitVec 16

/-- The 26-bit jump target field (30_encoding.md R42). -/
abbrev Target := BitVec 26

end Sys2Proof
end

