-- ==== Sys2Proof/Config.lean ====
section
/-!
DEFINITION. What an implementation of the core fixes (00_scope.md R6), and the one value left free.
The values this hardware takes are `Machine.hardware` in Sys2Proof/Machine/Params.lean.
-/

namespace Sys2Proof

/-- How `j` forms its target (00_scope.md R6, 40_datapath.md R82). -/
inductive JumpMode where
  | segment
  | direct
deriving DecidableEq, Repr

/-- What function 43 does (00_scope.md R6, 40_datapath.md R75). -/
inductive Funct43Mode where
  | sltu
  | slt
  | halt
deriving DecidableEq, Repr

/-- The core's parameters; XLEN, NREG and ILEN are fixed by the types (00_scope.md R6). -/
structure Config where
  /-- MEM_BYTES, the size of the memory array in bytes. -/
  memBytes : Nat
  jumpMode : JumpMode
  funct43Mode : Funct43Mode
deriving DecidableEq, Repr

/-- MEM_WORDS (00_scope.md R6). -/
def Config.memWords (c : Config) : Nat := c.memBytes / 4

/-- FREE VALUE: what the memory stage hands to writeback when it reads nothing.
It reaches a register only under a control vector with MemtoReg and without MemRead, which no opcode
has (40_datapath.md R65). DESIGN CHOICE, safe: notes/assumptions/12.md. -/
opaque Config.unreadMemData : Word

end Sys2Proof
end

