-- ==== Sys2Proof/Machine/Params.lean ====
section
/-!
DEFINITION. The values this hardware takes for the parameters of 00_scope.md R6, and what a byte of memory
nothing has placed reads as.
-/

namespace Sys2Proof.Machine

/-- This hardware: MEM_BYTES 65536, JUMP_MODE SEGMENT, FUNCT43_MODE SLTU (00_scope.md R6).
DESIGN CHOICE (the spec's D6, D7, D19), unsafe: notes/assumptions/4.md. -/
def hardware : Config where
  memBytes := 65536
  jumpMode := .segment
  funct43Mode := .sltu

/-- What an unlisted address of the memory list reads as.
DESIGN CHOICE, unsafe: notes/assumptions/2.md (the host supplies all of memory, 70_reset_and_hazards.md R119). -/
def unlistedByte : Byte := 0#8

end Sys2Proof.Machine
end

