-- ==== Sys2Proof/Syntax.lean ====
section
/-!
DEFINITION. The instructions of spec/opcode_table.json, the fields a word is cut into, and the two ways a
word fails to be an instruction.
-/

namespace Sys2Proof

/-- The MySPIM ISA, one constructor per row of spec/opcode_table.json (00_scope.md R2), operands in the
order of the fields r1, r2, r3, offset (30_encoding.md R43). -/
inductive Instr where
  | add (r1 r2 r3 : RegIdx)
  | sub (r1 r2 r3 : RegIdx)
  | and (r1 r2 r3 : RegIdx)
  | or (r1 r2 r3 : RegIdx)
  | slt (r1 r2 r3 : RegIdx)
  | sltu (r1 r2 r3 : RegIdx)
  | addi (r1 r2 : RegIdx) (offset : Offset)
  | lw (r1 r2 : RegIdx) (offset : Offset)
  | sw (r1 r2 : RegIdx) (offset : Offset)
  | beq (r1 r2 : RegIdx) (offset : Offset)
  | j (target : Target)
deriving DecidableEq, Repr

/-- The field set, all seven fields of every word (30_encoding.md R42, `90_conflicts.md` C4). -/
structure Fields where
  op : BitVec 6
  r1 : RegIdx
  r2 : RegIdx
  r3 : RegIdx
  funct : BitVec 6
  offset : Offset
  target : Target
deriving DecidableEq, Repr

/-- The two kinds of word that are no instruction (30_encoding.md R53). -/
inductive DecodeError where
  /-- An opcode outside 0, 2, 4, 8, 35, 43 (30_encoding.md R51). -/
  | unsupportedOpcode (op : BitVec 6)
  /-- Opcode 0 with a funct outside the function map (30_encoding.md R52). -/
  | unsupportedFunction (funct : BitVec 6)
deriving DecidableEq, Repr

end Sys2Proof
end

