-- ==== Sys2Proof/Decode.lean ====
section
/-!
DEFINITION. Partition of a word into its fields, the decoder, and the encoder (30_encoding.md).
-/

namespace Sys2Proof

/-- Partition extracts the seven fields of every word and validates nothing (30_encoding.md R42, 40_datapath.md R62). -/
def partition (w : Word) : Fields where
  op := w.extractLsb' 26 6
  r1 := w.extractLsb' 21 5
  r2 := w.extractLsb' 16 5
  r3 := w.extractLsb' 11 5
  funct := w.extractLsb' 0 6
  offset := w.extractLsb' 0 16
  target := w.extractLsb' 0 26

/-- Function 43 as FUNCT43_MODE says (30_encoding.md R49, R54). -/
def decodeFunct43 (m : Funct43Mode) (f : Fields) : Except DecodeError Instr :=
  match m with
  | .sltu => .ok (.sltu f.r1 f.r2 f.r3)
  | .slt => .ok (.slt f.r1 f.r2 f.r3)
  | .halt => .error (.unsupportedFunction f.funct)

/-- The function map of opcode 0 (30_encoding.md R49). -/
def decodeFunct (c : Config) (f : Fields) : Except DecodeError Instr :=
  if f.funct = 32#6 then .ok (.add f.r1 f.r2 f.r3)
  else if f.funct = 34#6 then .ok (.sub f.r1 f.r2 f.r3)
  else if f.funct = 36#6 then .ok (.and f.r1 f.r2 f.r3)
  else if f.funct = 37#6 then .ok (.or f.r1 f.r2 f.r3)
  else if f.funct = 42#6 then .ok (.slt f.r1 f.r2 f.r3)
  else if f.funct = 43#6 then decodeFunct43 c.funct43Mode f
  else .error (.unsupportedFunction f.funct)

/-- The opcode map (30_encoding.md R48), tested in the order of R54. -/
def decodeFields (c : Config) (f : Fields) : Except DecodeError Instr :=
  if f.op = 0#6 then decodeFunct c f
  else if f.op = 2#6 then .ok (.j f.target)
  else if f.op = 4#6 then .ok (.beq f.r1 f.r2 f.offset)
  else if f.op = 8#6 then .ok (.addi f.r1 f.r2 f.offset)
  else if f.op = 35#6 then .ok (.lw f.r1 f.r2 f.offset)
  else if f.op = 43#6 then .ok (.sw f.r1 f.r2 f.offset)
  else .error (.unsupportedOpcode f.op)

/-- The instruction a word is, or the way it fails to be one: total on every word (30_encoding.md R53, R54). -/
def decode (c : Config) (w : Word) : Except DecodeError Instr :=
  decodeFields c (partition w)

/-- R-format layout, bits 10..6 written 0 (30_encoding.md R43, R55). -/
def encodeR (r1 r2 r3 : RegIdx) (funct : BitVec 6) : Word :=
  0#6 ++ r1 ++ r2 ++ r3 ++ 0#5 ++ funct

/-- I-format layout (30_encoding.md R43, R55). -/
def encodeI (op : BitVec 6) (r1 r2 : RegIdx) (offset : Offset) : Word :=
  op ++ r1 ++ r2 ++ offset

/-- J-format layout (30_encoding.md R43, R55). -/
def encodeJ (target : Target) : Word :=
  2#6 ++ target

/-- The word of an instruction (30_encoding.md R55, with the opcodes of R48 and the functions of R49). -/
def encode : Instr → Word
  | .add r1 r2 r3 => encodeR r1 r2 r3 32#6
  | .sub r1 r2 r3 => encodeR r1 r2 r3 34#6
  | .and r1 r2 r3 => encodeR r1 r2 r3 36#6
  | .or r1 r2 r3 => encodeR r1 r2 r3 37#6
  | .slt r1 r2 r3 => encodeR r1 r2 r3 42#6
  | .sltu r1 r2 r3 => encodeR r1 r2 r3 43#6
  | .addi r1 r2 offset => encodeI 8#6 r1 r2 offset
  | .lw r1 r2 offset => encodeI 35#6 r1 r2 offset
  | .sw r1 r2 offset => encodeI 43#6 r1 r2 offset
  | .beq r1 r2 offset => encodeI 4#6 r1 r2 offset
  | .j target => encodeJ target

/-- The mnemonic of an instruction's row in spec/opcode_table.json. -/
def Instr.mnemonic : Instr → String
  | .add _ _ _ => "add"
  | .sub _ _ _ => "sub"
  | .and _ _ _ => "and"
  | .or _ _ _ => "or"
  | .slt _ _ _ => "slt"
  | .sltu _ _ _ => "sltu"
  | .addi _ _ _ => "addi"
  | .lw _ _ _ => "lw"
  | .sw _ _ _ => "sw"
  | .beq _ _ _ => "beq"
  | .j _ => "j"

/-- A row of the opcode map as a mask and a match (30_encoding.md R54). -/
structure OpcodeRow where
  mnemonic : String
  mask : Word
  value : Word
deriving DecidableEq, Repr

/-- Match and mask per instruction (30_encoding.md R54, opcode_table.json). -/
def opcodeRows : List OpcodeRow :=
  [⟨"add", 0xFC00003F#32, 0x00000020#32⟩, ⟨"sub", 0xFC00003F#32, 0x00000022#32⟩,
   ⟨"and", 0xFC00003F#32, 0x00000024#32⟩, ⟨"or", 0xFC00003F#32, 0x00000025#32⟩,
   ⟨"slt", 0xFC00003F#32, 0x0000002A#32⟩, ⟨"sltu", 0xFC00003F#32, 0x0000002B#32⟩,
   ⟨"addi", 0xFC000000#32, 0x20000000#32⟩, ⟨"lw", 0xFC000000#32, 0x8C000000#32⟩,
   ⟨"sw", 0xFC000000#32, 0xAC000000#32⟩, ⟨"beq", 0xFC000000#32, 0x10000000#32⟩,
   ⟨"j", 0xFC000000#32, 0x08000000#32⟩]

/-- The word the opcode table's numbering gives: bit 0 the least significant, bits from nbits up zero. -/
def tableWord (nbits w : Nat) : Word := BitVec.ofNat 32 (w % 2 ^ nbits)

/-- What this hardware's decoder reads from a word of the opcode table. -/
def decodeTableWord (nbits w : Nat) : Option Instr :=
  match decode Machine.hardware (tableWord nbits w) with
  | .ok i => some i
  | .error _ => none

end Sys2Proof
end

