-- ==== Sys2Proof/Machine/Alu.lean ====
section
/-!
DEFINITION. The ALU: its eight operations and the two selectors that name them (40_datapath.md R64, R69 to R72).
-/

namespace Sys2Proof.Machine

/-- The ALU control, the eight operations of 40_datapath.md R69. -/
inductive AluCtl where
  | add
  | sub
  | slt
  | sltu
  | and
  | or
  | shl16
  | not
deriving DecidableEq, Repr

/-- The control vector's ALU-operation selector: an operation, or "use function field" (40_datapath.md R64). -/
inductive AluOp where
  | add
  | sub
  | slt
  | sltu
  | and
  | or
  | shl16
  | rtype
deriving DecidableEq, Repr

/-- The 3-bit codes of 40_datapath.md R69. DESIGN CHOICE (the spec's D5), safe: notes/assumptions/11.md. -/
def AluCtl.code : AluCtl → BitVec 3
  | .add => 0#3
  | .sub => 1#3
  | .slt => 2#3
  | .sltu => 3#3
  | .and => 4#3
  | .or => 5#3
  | .shl16 => 6#3
  | .not => 7#3

/-- The 3-bit codes of 40_datapath.md R64. DESIGN CHOICE (the spec's D4), safe: notes/assumptions/11.md. -/
def AluOp.code : AluOp → BitVec 3
  | .add => 0#3
  | .sub => 1#3
  | .slt => 2#3
  | .sltu => 3#3
  | .and => 4#3
  | .or => 5#3
  | .shl16 => 6#3
  | .rtype => 7#3

/-- The operation a 3-bit ALU control value names: every value names one (40_datapath.md R72). -/
def AluCtl.ofCode (n : BitVec 3) : AluCtl :=
  if n = 0#3 then .add
  else if n = 1#3 then .sub
  else if n = 2#3 then .slt
  else if n = 3#3 then .sltu
  else if n = 4#3 then .and
  else if n = 5#3 then .or
  else if n = 6#3 then .shl16
  else .not

/-- The word of a comparison: 1 for true, 0 for false (40_datapath.md R70).
PRESUMED (the spec's D11, the MIPS convention), unsafe: notes/assumptions/6.md. -/
def truthWord (p : Bool) : Word := if p then 1#32 else 0#32

/-- The ALU function (40_datapath.md R70); arithmetic wraps and never traps (R76). -/
def aluResult (ctl : AluCtl) (a b : Word) : Word :=
  match ctl with
  | .add => a + b
  | .sub => a - b
  | .slt => truthWord (a.slt b)
  | .sltu => truthWord (a.ult b)
  | .and => a &&& b
  | .or => a ||| b
  | .shl16 => b <<< 16
  | .not => ~~~a

end Sys2Proof.Machine
end

