-- ==== Sys2Proof/Machine/Flags.lean ====
section
/-!
DEFINITION. The one flag the core computes, the ALU's transient Zero; the core has no architectural flags
(10_state.md R18).
-/

namespace Sys2Proof.Machine

/-- zero := (result == 0), for every operation (40_datapath.md R71). -/
def zeroFlag (result : Word) : Bool := result == 0#32

end Sys2Proof.Machine
end

