-- ==== Sys2Proof/Machine/State.lean ====
section
/-!
DEFINITION. The architectural state of the core (10_state.md R9), the causes it halts with, and how a step of
the model stops.
-/

namespace Sys2Proof.Machine

/-- The run status (10_state.md R19). -/
inductive RunStatus where
  | running
  | halted
deriving DecidableEq, Repr

/-- The halt causes (60_exceptions.md R101); `none` while running. -/
inductive HaltCause where
  | none
  | invalidFetchAddress
  | unsupportedOpcode
  | unsupportedFunction
  | invalidMemoryAddress
deriving DecidableEq, Repr

/-- The memory array as a list of addresses and bytes in the canonical form `Memory.wf`. -/
abbrev Memory := List Host.Cell

/-- The canonical form: addresses strictly rising, and no entry that an unlisted address would read as. -/
abbrev Memory.wf (m : Memory) : Prop :=
  m.Pairwise (fun c d => c.1 < d.1) ∧ ∀ c ∈ m, c.2 ≠ unlistedByte

/-- The architectural state is exactly this (10_state.md R9). -/
structure State where
  /-- x[0..31], all of them ordinary registers (10_state.md R10, R11). -/
  regs : Vector Word 32
  /-- The byte address of the instruction being executed (10_state.md R15). -/
  pc : Word
  /-- mem[0..MEM_WORDS-1], shared by fetch and data (10_state.md R22, 20_memory.md R23). -/
  mem : Memory
  /-- RUNNING or HALTED (10_state.md R19). -/
  status : RunStatus
  /-- Why the core halted (10_state.md R19). -/
  cause : HaltCause
deriving DecidableEq, Repr

/-- How a step of the model stops without a next state. -/
inductive Fault where
  /-- Raised by `step` on a HALTED core: it takes no step until the host re-initialises it
  (40_datapath.md R60, 93_implementation_defined.md item 15). Safe. -/
  | coreHalted
deriving DecidableEq, Repr

/-- Why an instruction has no meaning in the model. -/
inductive Refusal where
  /-- An instruction whose arm has no meaning yet; raised by no arm of this model. Safe. -/
  | notModelled (mnemonic : String)
deriving DecidableEq, Repr

/-- The state the model starts from: RUNNING and NONE as 70_reset_and_hazards.md R120 says, and for the values
the host supplies (R119) pc 0, registers 0, nothing listed in memory.
DESIGN CHOICE, unsafe: notes/assumptions/1.md. Every other launch is `launchState` in Machine/HostInterface.lean. -/
def State.reset : State where
  regs := Vector.replicate 32 0#32
  pc := 0#32
  mem := []
  status := .running
  cause := .none

end Sys2Proof.Machine
end

