-- ==== Sys2Proof/Machine/Ops.lean ====
section
/-!
DEFINITION. The named operations over registers, memory and the program counter, and halting.
-/

namespace Sys2Proof.Machine

/-! ## Registers and the program counter -/

/-- x[i]; register 0 is read like any other (10_state.md R11, R12). -/
def State.reg (s : State) (i : RegIdx) : Word := s.regs[i.toNat]'i.isLt

/-- x[i] <- v; register 0 is written like any other (10_state.md R11, 40_datapath.md R79). -/
def State.setReg (s : State) (i : RegIdx) (v : Word) : State :=
  { s with regs := s.regs.set i.toNat v i.isLt }

/-- pc <- t. -/
def State.setPc (s : State) (t : Word) : State := { s with pc := t }

/-- The memory array replaced. -/
def State.setMem (s : State) (m : Memory) : State := { s with mem := m }

/-- The default, sequential next PC, modulo 2^32 (40_datapath.md R80, 10_state.md R17).
DESIGN CHOICE (the spec's D8), unsafe: notes/assumptions/7.md. -/
def State.seqPc (s : State) : Word := s.pc + 4#32

/-! ## Halting (60_exceptions.md) -/

/-- The codes of 60_exceptions.md R101. DESIGN CHOICE (the spec's D2), safe: notes/assumptions/11.md. -/
def HaltCause.code : HaltCause → Nat
  | .none => 0
  | .invalidFetchAddress => 1
  | .unsupportedOpcode => 2
  | .unsupportedFunction => 3
  | .invalidMemoryAddress => 4

/-- status <- HALTED, cause <- cause, and nothing else (60_exceptions.md R107). -/
def State.halt (cause : HaltCause) (s : State) : State :=
  { s with status := .halted, cause := cause }

/-- Halt entry, the one way every halt is taken: a next state (60_exceptions.md R107).
No vector, no saved pc (R108), and no return but the host's Initialize (R109), which is `launchState` in
Machine/HostInterface.lean. DESIGN CHOICE (the spec's D3), safe: notes/assumptions/5.md. -/
def raiseHalt (cause : HaltCause) (s : State) : Host.Outcome State Fault Refusal :=
  .next (s.halt cause)

end Sys2Proof.Machine

/-- The halt a word that is no instruction raises (60_exceptions.md R103, R104). -/
def Sys2Proof.DecodeError.cause : Sys2Proof.DecodeError → Sys2Proof.Machine.HaltCause
  | .unsupportedOpcode _ => .unsupportedOpcode
  | .unsupportedFunction _ => .unsupportedFunction

namespace Sys2Proof.Machine

/-! ## Memory (20_memory.md) -/

/-- legal(a): a multiple of 4 and below MEM_BYTES, unsigned (20_memory.md R30, 90_conflicts.md C2).
DESIGN CHOICE for the unsigned comparison (the spec's D8), unsafe: notes/assumptions/7.md. -/
def legal (c : Config) (a : Word) : Bool :=
  a.extractLsb' 0 2 == 0#2 && decide (a.toNat < c.memBytes)

/-- One byte of the memory list. -/
def Memory.readByte : Memory → Nat → Byte
  | [], _ => unlistedByte
  | (k, b) :: rest, a => if k = a then b else Memory.readByte rest a

/-- A cell in front of a memory, unless the byte is what an unlisted address reads as. -/
def Memory.consByte (a : Nat) (v : Byte) (m : Memory) : Memory :=
  if v = unlistedByte then m else (a, v) :: m

/-- One byte replaced, the canonical form kept. -/
def Memory.writeByte : Memory → Nat → Byte → Memory
  | [], a, v => Memory.consByte a v []
  | (k, b) :: rest, a, v =>
    if a < k then Memory.consByte a v ((k, b) :: rest)
    else if a = k then Memory.consByte a v rest
    else (k, b) :: Memory.writeByte rest a v

/-- mem[k], all 32 bits (20_memory.md R23); the list keeps the least significant byte lowest.
DESIGN CHOICE for that order, safe: notes/assumptions/3.md (the core has none, 20_memory.md R26). -/
def Memory.word (m : Memory) (k : Nat) : Word :=
  m.readByte (4 * k + 3) ++ m.readByte (4 * k + 2) ++ m.readByte (4 * k + 1) ++ m.readByte (4 * k)

/-- mem[k] <- v, all 32 bits (20_memory.md R32). -/
def Memory.setWord (m : Memory) (k : Nat) (v : Word) : Memory :=
  (((m.writeByte (4 * k) (v.extractLsb' 0 8)).writeByte (4 * k + 1) (v.extractLsb' 8 8)).writeByte
    (4 * k + 2) (v.extractLsb' 16 8)).writeByte (4 * k + 3) (v.extractLsb' 24 8)

/-- The word index of a byte address: a >> 2 (20_memory.md R31). -/
def wordIndex (a : Word) : Nat := (a >>> 2).toNat

/-- MemRead(a, 4) for a legal a (20_memory.md R31). -/
def memRead (m : Memory) (a : Word) : Word := m.word (wordIndex a)

/-- MemWrite(a, 4, v) for a legal a (20_memory.md R32). -/
def memWrite (m : Memory) (a : Word) (v : Word) : Memory := m.setWord (wordIndex a) v

/-- The memory array whose words from index k on are those listed (INIT_MEM, 70_reset_and_hazards.md R119). -/
def Memory.ofWordsFrom : Nat → List Word → Memory
  | _, [] => []
  | k, w :: ws => (Memory.ofWordsFrom (k + 1) ws).setWord k w

/-! ## Fetch and decode -/

/-- Fetch: the word at pc, nothing when pc is not legal; a pure read (40_datapath.md R61). -/
def fetch (c : Config) (s : State) : Option Word :=
  if legal c s.pc then some (memRead s.mem s.pc) else none

end Sys2Proof.Machine
end

