-- ==== Sys2Proof/Machine/Operands.lean ====
section
/-!
DEFINITION. The operand forms: immediates, the effective address, the branch and jump targets.
-/

namespace Sys2Proof.Machine

/-- sext_32(offset): bit 15 copied into bits 31..16 (40_datapath.md R67, 30_encoding.md R45). -/
def sext32 (offset : Offset) : Word := offset.signExtend 32

/-- The branch displacement in bytes, extended << 2 (30_encoding.md R46, 40_datapath.md R81). -/
def branchDisp (offset : Offset) : Word := sext32 offset <<< 2

/-- The effective address of a load or store, the ALU's 32-bit sum of base and displacement
(43_load_store.md R95, 40_datapath.md R77). A sum past 2^32 wraps: the spec's D13 and 90_conflicts.md C3,
DESIGN CHOICE, unsafe: notes/assumptions/8.md. -/
def effectiveAddress (s : State) (r1 : RegIdx) (offset : Offset) : Word :=
  aluResult .add (s.reg r1) (sext32 offset)

/-- The branch target, from the address after the branch, modulo 2^32 (40_datapath.md R81, 10_state.md R17).
DESIGN CHOICE (the spec's D8), unsafe: notes/assumptions/7.md. -/
def branchTarget (p4 : Word) (offset : Offset) : Word := p4 + branchDisp offset

/-- JumpTarget(p4, target) by JUMP_MODE (40_datapath.md R82). -/
def jumpTarget (m : JumpMode) (p4 : Word) (target : Target) : Word :=
  match m with
  | .segment => p4.extractLsb' 28 4 ++ target ++ 0#2
  | .direct => 0#4 ++ target ++ 0#2

end Sys2Proof.Machine
end

