-- ==== Sys2Proof/Machine/Control.lean ====
section
/-!
DEFINITION. Control transfer: beq, j (44_control_transfer.md). There is no delay slot (R99).
-/

namespace Sys2Proof.Machine

/-- 44_control_transfer.md R97: the ALU subtracts, and Zero decides. The target is not checked here; an illegal one
halts at the next fetch. -/
def execBeq (r1 r2 : RegIdx) (offset : Offset) (s : State) : Host.Outcome State Fault Refusal :=
  .next (s.setPc
    (if zeroFlag (aluResult .sub (s.reg r1) (s.reg r2)) then branchTarget s.seqPc offset else s.seqPc))

/-- 44_control_transfer.md R98. -/
def execJ (target : Target) (s : State) : Host.Outcome State Fault Refusal :=
  .next (s.setPc (jumpTarget hardware.jumpMode s.seqPc target))

end Sys2Proof.Machine
end

