-- ==== Sys2Proof/Machine/Immediate.lean ====
section
/-!
DEFINITION. Immediate arithmetic: addi (42_immediate.md).
-/

namespace Sys2Proof.Machine

/-- 42_immediate.md R94. -/
def execAddi (r1 r2 : RegIdx) (offset : Offset) (s : State) : Host.Outcome State Fault Refusal :=
  .next ((s.setReg r2 (aluResult .add (s.reg r1) (sext32 offset))).setPc s.seqPc)

end Sys2Proof.Machine
end

