-- ==== Sys2Proof/Machine/LoadStore.lean ====
section
/-!
DEFINITION. Loads and stores: lw, sw (43_load_store.md).
-/

namespace Sys2Proof.Machine

/-- Load the word at an effective address into a register (43_load_store.md R95); an address that is not legal
halts before any access (20_memory.md R28, R33). -/
def loadWord (c : Config) (ea : Word) (r2 : RegIdx) (s : State) : Host.Outcome State Fault Refusal :=
  if legal c ea then .next ((s.setReg r2 (memRead s.mem ea)).setPc s.seqPc)
  else raiseHalt .invalidMemoryAddress s

/-- Store a word at an effective address (43_load_store.md R96), checked the same way. -/
def storeWord (c : Config) (ea : Word) (v : Word) (s : State) : Host.Outcome State Fault Refusal :=
  if legal c ea then .next ((s.setMem (memWrite s.mem ea v)).setPc s.seqPc)
  else raiseHalt .invalidMemoryAddress s

/-- 43_load_store.md R95. -/
def execLw (r1 r2 : RegIdx) (offset : Offset) (s : State) : Host.Outcome State Fault Refusal :=
  loadWord hardware (effectiveAddress s r1 offset) r2 s

/-- 43_load_store.md R96. -/
def execSw (r1 r2 : RegIdx) (offset : Offset) (s : State) : Host.Outcome State Fault Refusal :=
  storeWord hardware (effectiveAddress s r1 offset) (s.reg r2) s

end Sys2Proof.Machine
end

