-- ==== Sys2Proof/Machine/Register.lean ====
section
/-!
DEFINITION. The register-format instructions: add, sub, and, or, slt, sltu (41_register_format.md).
-/

namespace Sys2Proof.Machine

/-- Common to every register-format instruction (41_register_format.md R87): the sources are read before the
write, so r3 may equal either. -/
def registerOp (ctl : AluCtl) (r1 r2 r3 : RegIdx) (s : State) : Host.Outcome State Fault Refusal :=
  .next ((s.setReg r3 (aluResult ctl (s.reg r1) (s.reg r2))).setPc s.seqPc)

/-- 41_register_format.md R88. -/
def execAdd (r1 r2 r3 : RegIdx) (s : State) : Host.Outcome State Fault Refusal :=
  registerOp .add r1 r2 r3 s

/-- 41_register_format.md R89. -/
def execSub (r1 r2 r3 : RegIdx) (s : State) : Host.Outcome State Fault Refusal :=
  registerOp .sub r1 r2 r3 s

/-- 41_register_format.md R92. -/
def execAnd (r1 r2 r3 : RegIdx) (s : State) : Host.Outcome State Fault Refusal :=
  registerOp .and r1 r2 r3 s

/-- 41_register_format.md R93. -/
def execOr (r1 r2 r3 : RegIdx) (s : State) : Host.Outcome State Fault Refusal :=
  registerOp .or r1 r2 r3 s

/-- 41_register_format.md R90. -/
def execSlt (r1 r2 r3 : RegIdx) (s : State) : Host.Outcome State Fault Refusal :=
  registerOp .slt r1 r2 r3 s

/-- 41_register_format.md R91. Under another FUNCT43_MODE the word of `sltu` decodes to `slt` or to nothing
(Sys2Proof.decodeFunct43): DEDUCED, safe: notes/assumptions/14.md. -/
def execSltu (r1 r2 r3 : RegIdx) (s : State) : Host.Outcome State Fault Refusal :=
  registerOp .sltu r1 r2 r3 s

end Sys2Proof.Machine
end

