-- ==== Sys2Proof/Machine/Dispatch.lean ====
section
/-!
DEFINITION. One arm per instruction, each a direct call of its meaning.
-/

namespace Sys2Proof.Machine

def exec (i : Instr) (s : State) : Host.Outcome State Fault Refusal :=
  match i with
  | .add r1 r2 r3 => Sys2Proof.Machine.execAdd r1 r2 r3 s
  | .sub r1 r2 r3 => Sys2Proof.Machine.execSub r1 r2 r3 s
  | .and r1 r2 r3 => Sys2Proof.Machine.execAnd r1 r2 r3 s
  | .or r1 r2 r3 => Sys2Proof.Machine.execOr r1 r2 r3 s
  | .slt r1 r2 r3 => Sys2Proof.Machine.execSlt r1 r2 r3 s
  | .sltu r1 r2 r3 => Sys2Proof.Machine.execSltu r1 r2 r3 s
  | .addi r1 r2 offset => Sys2Proof.Machine.execAddi r1 r2 offset s
  | .lw r1 r2 offset => Sys2Proof.Machine.execLw r1 r2 offset s
  | .sw r1 r2 offset => Sys2Proof.Machine.execSw r1 r2 offset s
  | .beq r1 r2 offset => Sys2Proof.Machine.execBeq r1 r2 offset s
  | .j target => Sys2Proof.Machine.execJ target s

end Sys2Proof.Machine
end

