-- ==== Sys2Proof/Machine/Step.lean ====
section
/-!
DEFINITION. One step of this hardware: fetch, decode, execute (40_datapath.md R59), only while RUNNING (R60).
-/

namespace Sys2Proof.Machine

/-- One step. A HALTED core takes none; an illegal pc halts at fetch; a word that is no instruction halts with
its cause; an instruction has its meaning (40_datapath.md R59, R60, 60_exceptions.md R106). -/
def step (s : State) : Host.Outcome State Fault Refusal :=
  match s.status with
  | .halted => .fault .coreHalted
  | .running =>
    match fetch hardware s with
    | none => raiseHalt .invalidFetchAddress s
    | some w =>
      match decode hardware w with
      | .error e => raiseHalt e.cause s
      | .ok i => exec i s

/-- The state with a word of the opcode table stored where the next fetch reads. The fetch needs, beside it, a
RUNNING core and a legal pc, which the host's Initialize gives (notes/assumptions/10.md). -/
def State.withFetchWord (s : State) (nbits w : Nat) : State :=
  s.setMem (memWrite s.mem s.pc (tableWord nbits w))

end Sys2Proof.Machine
end

