-- ==== Sys2Proof/Machine/Datapath.lean ====
section
/-!
DEFINITION. The datapath of 40_datapath.md stage by stage, for every configuration: the control vector, ALU
dispatch, the memory stage, writeback and the PC update. `step` (Step.lean) gives each instruction its own meaning;
`datapathStep hardware` is the same machine read from R59, and a statement says that the two agree.
-/

namespace Sys2Proof.Machine

/-- The control vector (40_datapath.md R63). -/
structure ControlVector where
  regDst : Bool
  aluSrc : Bool
  memtoReg : Bool
  regWrite : Bool
  memRead : Bool
  memWrite : Bool
  branch : Bool
  jump : Bool
  aluOp : AluOp
deriving DecidableEq, Repr

/-- All unlisted signals default to 0, and ALUOp 0 is add (40_datapath.md R63, R64). -/
def ControlVector.idle : ControlVector where
  regDst := false
  aluSrc := false
  memtoReg := false
  regWrite := false
  memRead := false
  memWrite := false
  branch := false
  jump := false
  aluOp := .add

/-- Decode: the control vector of an opcode, from the opcode alone (40_datapath.md R63, R65). -/
def controlVector (op : BitVec 6) : Option ControlVector :=
  if op = 0#6 then some { ControlVector.idle with regDst := true, regWrite := true, aluOp := .rtype }
  else if op = 8#6 then some { ControlVector.idle with aluSrc := true, regWrite := true }
  else if op = 35#6 then
    some { ControlVector.idle with aluSrc := true, memtoReg := true, regWrite := true, memRead := true }
  else if op = 43#6 then some { ControlVector.idle with aluSrc := true, memWrite := true }
  else if op = 4#6 then some { ControlVector.idle with branch := true, aluOp := .sub }
  else if op = 2#6 then some { ControlVector.idle with jump := true }
  else none

/-- What function 43 selects (40_datapath.md R75). -/
def funct43Ctl : Funct43Mode → Option AluCtl
  | .sltu => some .sltu
  | .slt => some .slt
  | .halt => none

/-- FunctTable (40_datapath.md R74). -/
def functTable (c : Config) (funct : BitVec 6) : Option AluCtl :=
  if funct = 32#6 then some .add
  else if funct = 34#6 then some .sub
  else if funct = 36#6 then some .and
  else if funct = 37#6 then some .or
  else if funct = 42#6 then some .slt
  else if funct = 43#6 then funct43Ctl c.funct43Mode
  else none

/-- ALU-operation dispatch (40_datapath.md R73): funct is read only under RTYPE. -/
def aluDispatch (c : Config) (cv : ControlVector) (funct : BitVec 6) : Option AluCtl :=
  match cv.aluOp with
  | .add => some .add
  | .sub => some .sub
  | .slt => some .slt
  | .sltu => some .sltu
  | .and => some .and
  | .or => some .or
  | .shl16 => some .shl16
  | .rtype => functTable c funct

/-- The ALU's second operand (40_datapath.md R68). -/
def operandB (cv : ControlVector) (data2 extended : Word) : Word :=
  if cv.aluSrc then extended else data2

/-- The memory stage (40_datapath.md R77): nothing when a requested access is not legal; otherwise memdata and the
memory after it. Under both flags the read comes before the write (R78). -/
def memoryStage (c : Config) (cv : ControlVector) (result data2 : Word) (m : Memory) :
    Option (Word × Memory) :=
  if (cv.memRead || cv.memWrite) && !legal c result then none
  else
    some (if cv.memRead then Machine.memRead m result else Config.unreadMemData,
      if cv.memWrite then Machine.memWrite m result data2 else m)

/-- Writeback (40_datapath.md R79). -/
def writeback (cv : ControlVector) (f : Fields) (result memdata : Word) (s : State) : State :=
  if cv.regWrite then
    s.setReg (if cv.regDst then f.r3 else f.r2) (if cv.memtoReg then memdata else result)
  else s

/-- The next PC, in the fixed order default, Branch, Jump (40_datapath.md R80, R84). -/
def nextPc (c : Config) (cv : ControlVector) (f : Fields) (zero : Bool) (pc : Word) : Word :=
  let p4 := pc + 4#32
  let npc := if cv.branch && zero then p4 + (sext32 f.offset <<< 2) else p4
  if cv.jump then jumpTarget c.jumpMode p4 f.target else npc

/-- Stages 4 to 9 under a control vector: every value is read from the state before the step, and the writes take
effect together (40_datapath.md R59, R86). -/
def datapath (c : Config) (cv : ControlVector) (f : Fields) (s : State) : Host.Outcome State Fault Refusal :=
  match aluDispatch c cv f.funct with
  | none => raiseHalt .unsupportedFunction s
  | some ctl =>
    let data2 := s.reg f.r2
    let result := aluResult ctl (s.reg f.r1) (operandB cv data2 (sext32 f.offset))
    match memoryStage c cv result data2 s.mem with
    | none => raiseHalt .invalidMemoryAddress s
    | some (memdata, mem') =>
      .next (((writeback cv f result memdata s).setMem mem').setPc (nextPc c cv f (zeroFlag result) s.pc))

/-- One step of the datapath under any configuration (40_datapath.md R59, R60). -/
def datapathStep (c : Config) (s : State) : Host.Outcome State Fault Refusal :=
  match s.status with
  | .halted => .fault .coreHalted
  | .running =>
    match fetch c s with
    | none => raiseHalt .invalidFetchAddress s
    | some w =>
      match controlVector (partition w).op with
      | none => raiseHalt .unsupportedOpcode s
      | some cv => datapath c cv (partition w) s

end Sys2Proof.Machine
end

