-- ==== Sys2Proof/Machine/HostInterface.lean ====
section
/-!
DEFINITION. The host's three operations on the core: Initialize, Step, Inspect (70_reset_and_hazards.md R122).
-/

namespace Sys2Proof.Machine

/-- Initialize: INIT_PC, INIT_REGS and INIT_MEM as the host sends them, RUNNING and NONE
(70_reset_and_hazards.md R119, R120). -/
def launchState (initPc : Word) (initRegs : Vector Word 32) (initMem : Vector Word hardware.memWords) : State where
  regs := initRegs
  pc := initPc
  mem := Memory.ofWordsFrom 0 initMem.toList
  status := .running
  cause := .none

/-- What the host may ask of the core (70_reset_and_hazards.md R122). -/
inductive HostOp where
  | launch (initPc : Word) (initRegs : Vector Word 32) (initMem : Vector Word hardware.memWords)
  | step
  | inspectReg (i : RegIdx)
  | inspectWord (k : Fin hardware.memWords)
  | inspectPc
  | inspectStatus
deriving DecidableEq, Repr

/-- What the host gets back (70_reset_and_hazards.md R122). -/
inductive HostReply where
  | nothing
  | continue
  | halt (cause : HaltCause)
  | value (v : Word)
  | runStatus (status : RunStatus) (cause : HaltCause)
deriving DecidableEq, Repr

/-- The status a completed step returns: continue, or halt with its cause (40_datapath.md R59, 60_exceptions.md R107). -/
def stepReply (s : State) : HostReply :=
  match s.status with
  | .running => .continue
  | .halted => .halt s.cause

/-- One host operation, between steps (70_reset_and_hazards.md R122, R123). DESIGN CHOICE (the spec's D16),
unsafe: notes/assumptions/10.md. -/
def hostOp (op : HostOp) (s : State) : Host.Outcome (State × HostReply) Fault Refusal :=
  match op with
  | .launch initPc initRegs initMem => .next (launchState initPc initRegs initMem, .nothing)
  | .step =>
    match step s with
    | .next t => .next (t, stepReply t)
    | .fault r => .fault r
    | .refused r => .refused r
  | .inspectReg i => .next (s, .value (s.reg i))
  | .inspectWord k => .next (s, .value (s.mem.word k))
  | .inspectPc => .next (s, .value s.pc)
  | .inspectStatus => .next (s, .runStatus s.status s.cause)

end Sys2Proof.Machine
end

