-- ==== Sys2Proof/Safety.lean ====
section
/-!
DEFINITION. The terms the statements use: the invariant of a run, what a step fetches, the one register and the one
memory word an instruction may write.
-/

namespace Sys2Proof.Machine

/-- Every listed address lies below n. -/
def Memory.within (n : Nat) (m : Memory) : Prop := ∀ c ∈ m, c.1 < n

/-- What every step keeps. -/
structure State.Inv (s : State) : Prop where
  /-- The memory list is in its canonical form. -/
  memWf : s.mem.wf
  /-- Nothing lies outside the memory array (20_memory.md R23). -/
  memWithin : s.mem.within hardware.memBytes
  /-- pc stays word-aligned (10_state.md R15, 40_datapath.md R85). -/
  pcAligned : s.pc.extractLsb' 0 2 = 0#2
  /-- cause is NONE exactly while running (10_state.md R19). -/
  causeNone : s.status = .running ↔ s.cause = .none

/-- The core is running and its next step fetches w: pc is legal and addresses w. -/
def State.fetches (s : State) (w : Word) : Prop :=
  s.status = .running ∧ legal hardware s.pc = true ∧ memRead s.mem s.pc = w

/-- The next step halts with a cause and changes nothing but status and cause (60_exceptions.md R107). -/
def State.haltsWith (s : State) (cause : HaltCause) : Prop :=
  step s = .next { s with status := .halted, cause := cause }

/-- "Halts: InvalidFetchAddress if pc is not legal", which every instruction's rule says (41_register_format.md R87). -/
def State.fetchGuard (s : State) : Prop :=
  s.status = .running → legal hardware s.pc = false → s.haltsWith .invalidFetchAddress

/-- The register an instruction writes, if any (10_state.md R13). -/
def destReg : Instr → Option RegIdx
  | .add _ _ r3 => some r3
  | .sub _ _ r3 => some r3
  | .and _ _ r3 => some r3
  | .or _ _ r3 => some r3
  | .slt _ _ r3 => some r3
  | .sltu _ _ r3 => some r3
  | .addi _ r2 _ => some r2
  | .lw _ r2 _ => some r2
  | .sw _ _ _ => none
  | .beq _ _ _ => none
  | .j _ => none

/-- The byte address of the word an instruction stores to, if it stores (20_memory.md R24). -/
def storeAddress (s : State) : Instr → Option Word
  | .sw r1 _ offset => some (effectiveAddress s r1 offset)
  | .add _ _ _ => none
  | .sub _ _ _ => none
  | .and _ _ _ => none
  | .or _ _ _ => none
  | .slt _ _ _ => none
  | .sltu _ _ _ => none
  | .addi _ _ _ => none
  | .lw _ _ _ => none
  | .beq _ _ _ => none
  | .j _ => none

end Sys2Proof.Machine
end

