-- ==== Sys2Proof/WellFormed.lean ====
section
/-!
DEFINITION. When a configuration is one the spec allows, and when an instruction exists under it.
The widths of an instruction's operands are in its type, so no operand can be out of its field (30_encoding.md R55).
-/

namespace Sys2Proof

/-- MEM_BYTES is a multiple of 4 with 4 <= MEM_BYTES <= 2^32 (00_scope.md R7). -/
def Config.wellFormed (c : Config) : Bool :=
  c.memBytes % 4 == 0 && decide (4 ≤ c.memBytes) && decide (c.memBytes ≤ 2 ^ 32)

/-- The instruction exists under the configuration: `sltu` only when FUNCT43_MODE is SLTU
(00_scope.md R2, 41_register_format.md R91), every other one always. -/
def Instr.wellFormed (c : Config) : Instr → Bool
  | .sltu _ _ _ => c.funct43Mode == .sltu
  | .add _ _ _ => true
  | .sub _ _ _ => true
  | .and _ _ _ => true
  | .or _ _ _ => true
  | .slt _ _ _ => true
  | .addi _ _ _ => true
  | .lw _ _ _ => true
  | .sw _ _ _ => true
  | .beq _ _ _ => true
  | .j _ => true

end Sys2Proof
end

