-- ==== Sys2Proof/Certificates/Slice0/Obligations.lean ====
section
/-!
DEFINITION. The statements for the provers, in the order of OBLIGATIONS.json.
-/

open Sys2Proof Sys2Proof.Machine

/-! ## The instructions

Each first says what `exec` answers, for every state and operands; then that a step whose fetched word is laid out as
the rule's encoding says does the same; then the one halt the fetch may raise before it. -/

/-- 41_register_format.md R88, every operand form, bits 10..6 of the word free. -/
def Obligations.AddRule : Prop :=
  ∀ (r1 r2 r3 : RegIdx) (s : State),
    let t : State :=
      { s with regs := s.regs.set r3.toNat (s.reg r1 + s.reg r2) r3.isLt, pc := s.pc + 4#32 }
    Sys2Proof.Machine.exec (.add r1 r2 r3) s = .next t ∧
    (∀ ignored : BitVec 5, s.fetches (0#6 ++ r1 ++ r2 ++ r3 ++ ignored ++ 32#6) → step s = .next t) ∧
    s.fetchGuard

/-- 41_register_format.md R89. -/
def Obligations.SubRule : Prop :=
  ∀ (r1 r2 r3 : RegIdx) (s : State),
    let t : State :=
      { s with regs := s.regs.set r3.toNat (s.reg r1 - s.reg r2) r3.isLt, pc := s.pc + 4#32 }
    Sys2Proof.Machine.exec (.sub r1 r2 r3) s = .next t ∧
    (∀ ignored : BitVec 5, s.fetches (0#6 ++ r1 ++ r2 ++ r3 ++ ignored ++ 34#6) → step s = .next t) ∧
    s.fetchGuard

/-- 41_register_format.md R92. -/
def Obligations.AndRule : Prop :=
  ∀ (r1 r2 r3 : RegIdx) (s : State),
    let t : State :=
      { s with regs := s.regs.set r3.toNat (s.reg r1 &&& s.reg r2) r3.isLt, pc := s.pc + 4#32 }
    Sys2Proof.Machine.exec (.and r1 r2 r3) s = .next t ∧
    (∀ ignored : BitVec 5, s.fetches (0#6 ++ r1 ++ r2 ++ r3 ++ ignored ++ 36#6) → step s = .next t) ∧
    s.fetchGuard

/-- 41_register_format.md R93. -/
def Obligations.OrRule : Prop :=
  ∀ (r1 r2 r3 : RegIdx) (s : State),
    let t : State :=
      { s with regs := s.regs.set r3.toNat (s.reg r1 ||| s.reg r2) r3.isLt, pc := s.pc + 4#32 }
    Sys2Proof.Machine.exec (.or r1 r2 r3) s = .next t ∧
    (∀ ignored : BitVec 5, s.fetches (0#6 ++ r1 ++ r2 ++ r3 ++ ignored ++ 37#6) → step s = .next t) ∧
    s.fetchGuard

/-- 41_register_format.md R90, the comparison on two's-complement integers. The 1 and 0 are the spec's decision D11
(log entry 6). -/
def Obligations.SltResult : Prop :=
  ∀ (r1 r2 r3 : RegIdx) (s : State),
    let v : Word := if (s.reg r1).toInt < (s.reg r2).toInt then 1#32 else 0#32
    let t : State := { s with regs := s.regs.set r3.toNat v r3.isLt, pc := s.pc + 4#32 }
    Sys2Proof.Machine.exec (.slt r1 r2 r3) s = .next t ∧
    (∀ ignored : BitVec 5, s.fetches (0#6 ++ r1 ++ r2 ++ r3 ++ ignored ++ 42#6) → step s = .next t) ∧
    s.fetchGuard

/-- 41_register_format.md R91, the comparison on unsigned integers. The 1 and 0 are the spec's decision D11 (log entry
6); that function 43 is sltu is its decision D7 (log entry 4). -/
def Obligations.SltuResult : Prop :=
  ∀ (r1 r2 r3 : RegIdx) (s : State),
    let v : Word := if (s.reg r1).toNat < (s.reg r2).toNat then 1#32 else 0#32
    let t : State := { s with regs := s.regs.set r3.toNat v r3.isLt, pc := s.pc + 4#32 }
    Sys2Proof.Machine.exec (.sltu r1 r2 r3) s = .next t ∧
    (∀ ignored : BitVec 5, s.fetches (0#6 ++ r1 ++ r2 ++ r3 ++ ignored ++ 43#6) → step s = .next t) ∧
    s.fetchGuard

/-- 42_immediate.md R94. -/
def Obligations.AddiRule : Prop :=
  ∀ (r1 r2 : RegIdx) (offset : Offset) (s : State),
    let t : State :=
      { s with regs := s.regs.set r2.toNat (s.reg r1 + offset.signExtend 32) r2.isLt, pc := s.pc + 4#32 }
    Sys2Proof.Machine.exec (.addi r1 r2 offset) s = .next t ∧
    (s.fetches (8#6 ++ r1 ++ r2 ++ offset) → step s = .next t) ∧
    s.fetchGuard

/-- 43_load_store.md R95: with a legal effective address the load completes, with any other it halts and changes
nothing else. The unsigned check is the spec's decision D8, the wrapped address its D13 (log entries 7, 8). -/
def Obligations.LwResult : Prop :=
  ∀ (r1 r2 : RegIdx) (offset : Offset) (s : State),
    let ea : Word := s.reg r1 + offset.signExtend 32
    let t : State :=
      { s with regs := s.regs.set r2.toNat (s.mem.word (ea.toNat / 4)) r2.isLt, pc := s.pc + 4#32 }
    let h : State := { s with status := .halted, cause := .invalidMemoryAddress }
    (legal hardware ea = true → Sys2Proof.Machine.exec (.lw r1 r2 offset) s = .next t) ∧
    (legal hardware ea = false → Sys2Proof.Machine.exec (.lw r1 r2 offset) s = .next h) ∧
    (s.fetches (35#6 ++ r1 ++ r2 ++ offset) → step s = .next (if legal hardware ea then t else h)) ∧
    s.fetchGuard

/-- 43_load_store.md R96, in the same form: the memory after the store is the memory before it with the one word at
index ea >> 2 replaced (what that does to every word is `StoreReplacesOneWord`). D8 and D13 (log entries 7, 8). -/
def Obligations.SwResult : Prop :=
  ∀ (r1 r2 : RegIdx) (offset : Offset) (s : State),
    let ea : Word := s.reg r1 + offset.signExtend 32
    let t : State := { s with mem := s.mem.setWord (ea.toNat / 4) (s.reg r2), pc := s.pc + 4#32 }
    let h : State := { s with status := .halted, cause := .invalidMemoryAddress }
    (legal hardware ea = true → Sys2Proof.Machine.exec (.sw r1 r2 offset) s = .next t) ∧
    (legal hardware ea = false → Sys2Proof.Machine.exec (.sw r1 r2 offset) s = .next h) ∧
    (s.fetches (43#6 ++ r1 ++ r2 ++ offset) → step s = .next (if legal hardware ea then t else h)) ∧
    s.fetchGuard

/-- 44_control_transfer.md R97. That next-PC arithmetic is modulo 2^32 is the spec's decision D8 (log entry 7). -/
def Obligations.BeqResult : Prop :=
  ∀ (r1 r2 : RegIdx) (offset : Offset) (s : State),
    let t : State :=
      { s with
        pc :=
          if s.reg r1 = s.reg r2 then s.pc + 4#32 + (offset.signExtend 32 <<< 2) else s.pc + 4#32 }
    Sys2Proof.Machine.exec (.beq r1 r2 offset) s = .next t ∧
    (s.fetches (4#6 ++ r1 ++ r2 ++ offset) → step s = .next t) ∧
    s.fetchGuard

/-- 44_control_transfer.md R98 under JUMP_MODE = SEGMENT, the spec's decision D6 (log entry 4). -/
def Obligations.JResult : Prop :=
  ∀ (target : Target) (s : State),
    let t : State := { s with pc := (s.pc + 4#32).extractLsb' 28 4 ++ target ++ 0#2 }
    Sys2Proof.Machine.exec (.j target) s = .next t ∧
    (s.fetches (2#6 ++ target) → step s = .next t) ∧
    s.fetchGuard

/-! ## Frames -/

/-- add, sub, and, or, slt, sltu, addi: every register but the destination, every byte of memory, status and cause are
unchanged. -/
def Obligations.RegisterResultFrame : Prop :=
  ∀ (r1 r2 r3 : RegIdx) (offset : Offset) (s t : State),
    ∀ p ∈ [(Instr.add r1 r2 r3, r3), (Instr.sub r1 r2 r3, r3), (Instr.and r1 r2 r3, r3),
      (Instr.or r1 r2 r3, r3), (Instr.slt r1 r2 r3, r3), (Instr.sltu r1 r2 r3, r3),
      (Instr.addi r1 r2 offset, r2)],
      exec p.1 s = .next t →
      (∀ r, r ≠ p.2 → t.reg r = s.reg r) ∧
      (∀ a, t.mem.readByte a = s.mem.readByte a) ∧
      t.status = s.status ∧ t.cause = s.cause

/-- lw: every register but r2 (every register when it halts) and every byte of memory are unchanged; status and cause
change only when the effective address is not legal, and then pc does not. -/
def Obligations.LoadFrame : Prop :=
  ∀ (r1 r2 : RegIdx) (offset : Offset) (s t : State),
    exec (.lw r1 r2 offset) s = .next t →
    (∀ r, r ≠ r2 → t.reg r = s.reg r) ∧
    (∀ a, t.mem.readByte a = s.mem.readByte a) ∧
    (legal hardware (effectiveAddress s r1 offset) = true → t.status = s.status ∧ t.cause = s.cause) ∧
    (legal hardware (effectiveAddress s r1 offset) = false → t.regs = s.regs ∧ t.pc = s.pc)

/-- sw: every register is unchanged, and every byte outside the four at the effective address (every byte when it
halts). -/
def Obligations.StoreFrame : Prop :=
  ∀ (r1 r2 : RegIdx) (offset : Offset) (s t : State),
    exec (.sw r1 r2 offset) s = .next t →
    t.regs = s.regs ∧
    (∀ a, storeAddress s (.sw r1 r2 offset) = some a →
      ∀ b : Nat, b < a.toNat ∨ a.toNat + 4 ≤ b → t.mem.readByte b = s.mem.readByte b) ∧
    (legal hardware (effectiveAddress s r1 offset) = true → t.status = s.status ∧ t.cause = s.cause) ∧
    (legal hardware (effectiveAddress s r1 offset) = false → t.mem = s.mem ∧ t.pc = s.pc)

/-- beq, j: everything but pc is unchanged. -/
def Obligations.ControlFrame : Prop :=
  ∀ (r1 r2 : RegIdx) (offset : Offset) (target : Target) (s t : State),
    ∀ i ∈ [Instr.beq r1 r2 offset, Instr.j target],
      exec i s = .next t →
      (∀ r, t.reg r = s.reg r) ∧
      (∀ a, t.mem.readByte a = s.mem.readByte a) ∧
      t.status = s.status ∧ t.cause = s.cause

/-- 10_state.md R13, over steps: one register write at most, to r3 or r2 as the instruction's format says; sw, beq, j
and a step that halts write none. -/
def Obligations.OneRegisterWrite : Prop :=
  ∀ s t : State, step s = .next t →
    (t.status = .halted → t.regs = s.regs) ∧
    ∀ i, decode hardware (memRead s.mem s.pc) = .ok i →
      ∀ r, destReg i ≠ some r → t.reg r = s.reg r

/-- 20_memory.md R24: only sw writes memory, and it writes one word. -/
def Obligations.OnlyStoresWriteMemory : Prop :=
  ∀ s t : State, step s = .next t → t.mem ≠ s.mem →
    ∃ r1 r2 offset, decode hardware (memRead s.mem s.pc) = .ok (.sw r1 r2 offset) ∧
      legal hardware (effectiveAddress s r1 offset) = true ∧
      ∀ k, k ≠ wordIndex (effectiveAddress s r1 offset) → t.mem.word k = s.mem.word k

/-! ## Registers, memory, addresses -/

/-- 10_state.md R11: register 0 holds what was last written to it, as every other register does. -/
def Obligations.RegisterZeroIsOrdinary : Prop :=
  (∀ (s : State) (i k : RegIdx) (v : Word), (s.setReg i v).reg k = if k = i then v else s.reg k) ∧
  ∀ (r1 r2 r3 : RegIdx) (offset : Offset) (s t u : State),
    exec (.addi r1 0#5 offset) s = .next t → exec (.add 0#5 r2 r3) t = .next u →
    t.reg 0#5 = s.reg r1 + offset.signExtend 32 ∧ u.reg r3 = t.reg 0#5 + t.reg r2

/-- 20_memory.md R30 for this hardware, on the integers. Unsigned by the spec's decision D8, 65536 by D19 (log entries
4, 7). -/
def Obligations.LegalAddresses : Prop :=
  ∀ a : Word, legal hardware a = true ↔ a.toNat % 4 = 0 ∧ a.toNat < 65536

/-- 20_memory.md R32. -/
def Obligations.StoreReplacesOneWord : Prop :=
  ∀ (c : Config) (m : Memory) (a v : Word), m.wf → legal c a = true →
    (memWrite m a v).word (a >>> 2).toNat = v ∧
    ∀ k, k ≠ (a >>> 2).toNat → (memWrite m a v).word k = m.word k

/-- 20_memory.md R23, R26: the memory of the model is exactly the array of MEM_WORDS words, and nothing finer than a word
is in it. -/
def Obligations.WordsDetermineMemory : Prop :=
  ∀ m m' : Memory, m.wf → m'.wf → m.within hardware.memBytes → m'.within hardware.memBytes →
    (∀ k, k < hardware.memWords → m.word k = m'.word k) → m = m'

/-- 20_memory.md R35: a load returns the value of the most recent store to its word. -/
def Obligations.LoadReturnsLastStore : Prop :=
  ∀ (r1 r2 r4 : RegIdx) (offset : Offset) (s t : State), s.Inv →
    legal hardware (effectiveAddress s r1 offset) = true →
    exec (.sw r1 r2 offset) s = .next t →
    exec (.lw r1 r4 offset) t = .next ((t.setReg r4 (s.reg r2)).setPc (t.pc + 4#32))

/-- 20_memory.md R37: the fetch of the next step, if pc addresses the word just stored, reads the stored word. -/
def Obligations.FetchSeesEarlierStore : Prop :=
  ∀ (r1 r2 : RegIdx) (offset : Offset) (s t u : State), s.Inv →
    legal hardware (effectiveAddress s r1 offset) = true →
    exec (.sw r1 r2 offset) s = .next t →
    u.mem = t.mem → u.pc = effectiveAddress s r1 offset →
    fetch hardware u = some (s.reg r2)

/-- 20_memory.md R38: a store to the storing instruction's own word executes the old word; the new one is in memory
after the step. -/
def Obligations.StoreToOwnWord : Prop :=
  ∀ (r1 r2 : RegIdx) (offset : Offset) (s : State), s.Inv →
    s.fetches (encode (.sw r1 r2 offset)) → effectiveAddress s r1 offset = s.pc →
    ∃ t, step s = .next t ∧ memRead t.mem s.pc = s.reg r2 ∧ t.pc = s.pc + 4#32 ∧ t.regs = s.regs

/-! ## Encoding -/

/-- 30_encoding.md R42: the seven fields of every word, as integers. -/
def Obligations.PartitionFields : Prop :=
  ∀ w : Word,
    (partition w).op.toNat = w.toNat / 2 ^ 26 ∧
    (partition w).r1.toNat = w.toNat / 2 ^ 21 % 2 ^ 5 ∧
    (partition w).r2.toNat = w.toNat / 2 ^ 16 % 2 ^ 5 ∧
    (partition w).r3.toNat = w.toNat / 2 ^ 11 % 2 ^ 5 ∧
    (partition w).funct.toNat = w.toNat % 2 ^ 6 ∧
    (partition w).offset.toNat = w.toNat % 2 ^ 16 ∧
    (partition w).target.toNat = w.toNat % 2 ^ 26

/-- Decode and encode agree, for every instruction and every configuration under which it exists. -/
def Obligations.DecodeEncode : Prop :=
  ∀ (c : Config) (i : Instr), i.wellFormed c = true → decode c (encode i) = .ok i

/-- The other direction for this hardware: the decoder drops no bit but bits 10..6 of an R-format word. -/
def Obligations.EncodeDecode : Prop :=
  ∀ (w : Word) (i : Instr), decode hardware w = .ok i →
    encode i = if (partition w).op = 0#6 then w &&& 0xFFFFF83F#32 else w

/-- 30_encoding.md R54: a word decodes to an instruction of a row exactly when the row's mask and match say so, and no
word matches two rows. That function 43 is a row is the spec's decision D7 (log entry 4). -/
def Obligations.OpcodeTable : Prop :=
  (∀ (w : Word) (row : OpcodeRow), row ∈ opcodeRows →
    (w &&& row.mask = row.value ↔ ∃ i, decode hardware w = .ok i ∧ i.mnemonic = row.mnemonic)) ∧
  ∀ (w : Word) (row row' : OpcodeRow), row ∈ opcodeRows → row' ∈ opcodeRows →
    w &&& row.mask = row.value → w &&& row'.mask = row'.value → row = row'

/-- 30_encoding.md R44: bits 10..6 of an R-format word do not matter; for any other word the opcode alone decides
whether it is an instruction; j reads two registers without effect. -/
def Obligations.IgnoredBits : Prop :=
  (∀ (c : Config) (w w' : Word), (partition w).op = 0#6 →
    w &&& 0xFFFFF83F#32 = w' &&& 0xFFFFF83F#32 → decode c w = decode c w') ∧
  (∀ (c : Config) (w : Word), (partition w).op ≠ 0#6 →
    ((∃ i, decode c w = .ok i) ↔ controlVector (partition w).op ≠ none)) ∧
  ∀ (target : Target) (s t : State) (regs' : Vector Word 32), exec (.j target) s = .next t →
    exec (.j target) { s with regs := regs' } = .next { t with regs := regs' }

/-- Words written out from the spec's encodings (95_test_vectors.md 2.4 to 2.8). -/
def Obligations.DecodedWords : Prop :=
  decode hardware 0x00221820#32 = .ok (.add 1#5 2#5 3#5) ∧
  decode hardware 0x002218A0#32 = .ok (.add 1#5 2#5 3#5) ∧
  decode hardware 0x0022182A#32 = .ok (.slt 1#5 2#5 3#5) ∧
  decode hardware 0x2022FFFF#32 = .ok (.addi 1#5 2#5 0xFFFF#16) ∧
  decode hardware 0x8C220004#32 = .ok (.lw 1#5 2#5 4#16) ∧
  decode hardware 0xAC220004#32 = .ok (.sw 1#5 2#5 4#16) ∧
  decode hardware 0x10220003#32 = .ok (.beq 1#5 2#5 3#16) ∧
  decode hardware 0x08000040#32 = .ok (.j 0x40#26) ∧
  decode hardware 0x00000000#32 = .error (.unsupportedFunction 0#6) ∧
  decode hardware 0x3C010001#32 = .error (.unsupportedOpcode 15#6)

/-! ## The step -/

/-- A step runs the decoded instruction; nothing is done around `exec`, which sets pc itself. -/
def Obligations.StepRunsDecoded : Prop :=
  ∀ (s : State) (w : Word) (i : Instr), s.fetches w → decode hardware w = .ok i → step s = exec i s

/-- A step after a word of the opcode table is placed runs exactly that word. -/
def Obligations.WithFetchWordRuns : Prop :=
  ∀ (s : State) (nbits w : Nat) (i : Instr), s.mem.wf → s.status = .running → legal hardware s.pc = true →
    decodeTableWord nbits w = some i →
    step (s.withFetchWord nbits w) = exec i (s.withFetchWord nbits w)

/-- 40_datapath.md R59: the instructions' own meanings are the stage-by-stage datapath, on every state. -/
def Obligations.StepIsDatapath : Prop :=
  ∀ s : State, step s = datapathStep hardware s

/-- 60_exceptions.md R111: a step is a function of pc, the register file and memory alone. -/
def Obligations.StepFunctionOfPcRegsMem : Prop :=
  ∀ s s' t t' : State, s.status = .running → s'.status = .running →
    s.pc = s'.pc → s.regs = s'.regs → s.mem = s'.mem →
    step s = .next t → step s' = .next t' →
    t.pc = t'.pc ∧ t.regs = t'.regs ∧ t.mem = t'.mem ∧ t.status = t'.status ∧
    (t.status = .halted → t.cause = t'.cause)

/-- 40_datapath.md R60 (the spec's decision D3, log entry 5): a RUNNING core always takes its step, a HALTED one never
does, and no instruction is refused. -/
def Obligations.RunningStepsHaltedDoesNot : Prop :=
  ∀ s : State,
    (s.status = .running → ∃ t, step s = .next t) ∧
    (s.status = .halted → step s = .fault .coreHalted)

/-- 10_state.md R16: every step that does not halt advances pc by 4, but for beq with equal operands and j. The modulus
is the spec's D8, the jump's form its D6 (log entries 4, 7). -/
def Obligations.PcAdvance : Prop :=
  ∀ s t : State, step s = .next t → t.status = .running →
    ∃ i, decode hardware (memRead s.mem s.pc) = .ok i ∧
      ((∃ r1 r2 offset, i = .beq r1 r2 offset ∧ s.reg r1 = s.reg r2 ∧
          t.pc = s.pc + 4#32 + (offset.signExtend 32 <<< 2)) ∨
       (∃ target, i = .j target ∧ t.pc = (s.pc + 4#32).extractLsb' 28 4 ++ target ++ 0#2) ∨
       ((∀ r1 r2 offset, i = .beq r1 r2 offset → s.reg r1 ≠ s.reg r2) ∧ (∀ target, i ≠ .j target) ∧
          t.pc = s.pc + 4#32))

/-- 44_control_transfer.md R97: a beq that compares a register with an equal one and has offset -1 branches to itself
for ever. -/
def Obligations.SelfBranchLoops : Prop :=
  ∀ (r1 r2 : RegIdx) (s : State), s.reg r1 = s.reg r2 → s.fetches (encode (.beq r1 r2 0xFFFF#16)) →
    ∀ n, Host.Core.run Sys2Proof.core n s = .next s

/-! ## Halts -/

/-- 30_encoding.md R51, 60_exceptions.md R103. -/
def Obligations.UnsupportedOpcodeHalts : Prop :=
  ∀ (s : State) (w : Word), s.fetches w →
    (partition w).op.toNat ∉ [0, 2, 4, 8, 35, 43] → s.haltsWith .unsupportedOpcode

/-- 30_encoding.md R52, 60_exceptions.md R104, under every FUNCT43_MODE and for the step of this hardware. -/
def Obligations.UnsupportedFunctionHalts : Prop :=
  (∀ (c : Config) (s : State), s.status = .running → legal c s.pc = true →
    (partition (memRead s.mem s.pc)).op = 0#6 →
    (partition (memRead s.mem s.pc)).funct.toNat ∉ [32, 34, 36, 37, 42] →
    ((partition (memRead s.mem s.pc)).funct.toNat = 43 → c.funct43Mode = .halt) →
    datapathStep c s = .next { s with status := .halted, cause := .unsupportedFunction }) ∧
  (∀ (s : State) (w : Word), s.fetches w → (partition w).op = 0#6 →
    (partition w).funct.toNat ∉ [32, 34, 36, 37, 42, 43] → s.haltsWith .unsupportedFunction) ∧
  (∀ (s : State) (w : Word), s.fetches w → (partition w).op ≠ 0#6 → ¬ s.haltsWith .unsupportedFunction) ∧
  ∀ s : State, s.fetches 0#32 → s.haltsWith .unsupportedFunction

/-- 60_exceptions.md R102: InvalidFetchAddress exactly when pc is not legal, the bound itself included (90_conflicts.md
C2). Unsigned by the spec's D8, the halted state its D3 (log entries 5, 7). -/
def Obligations.InvalidFetchHalts : Prop :=
  (∀ s : State, s.status = .running → (s.haltsWith .invalidFetchAddress ↔ legal hardware s.pc = false)) ∧
  (∀ s : State, s.status = .running → s.pc.toNat = hardware.memBytes → s.haltsWith .invalidFetchAddress) ∧
  ∀ s : State, s.pc.toNat = hardware.memBytes - 4 →
    fetch hardware s = some (s.mem.word (hardware.memWords - 1))

/-- 60_exceptions.md R105: InvalidMemoryAddress exactly for a lw or sw whose effective address is not legal. Unsigned by
the spec's D8, the wrapped sum its D13 (log entries 7, 8). -/
def Obligations.InvalidMemoryHalts : Prop :=
  ∀ s : State, s.status = .running →
    (s.haltsWith .invalidMemoryAddress ↔
      legal hardware s.pc = true ∧
      ∃ r1 r2 offset,
        (decode hardware (memRead s.mem s.pc) = .ok (.lw r1 r2 offset) ∨
         decode hardware (memRead s.mem s.pc) = .ok (.sw r1 r2 offset)) ∧
        legal hardware (s.reg r1 + offset.signExtend 32) = false)

/-- 60_exceptions.md R107: a halt is precise, under one of the four causes. The halted state is the spec's decision D3
(log entry 5). -/
def Obligations.HaltIsPrecise : Prop :=
  ∀ s t : State, step s = .next t → t.status = .halted →
    t.pc = s.pc ∧ t.regs = s.regs ∧ t.mem = s.mem ∧ t.cause ≠ .none ∧
    (∀ r, step t ≠ .next r)

/-- 60_exceptions.md R109, R111: the state a halt leaves, started again, halts again with the same cause (the spec's
D3, log entry 5). -/
def Obligations.HaltRecurs : Prop :=
  ∀ s t : State, step s = .next t → t.status = .halted →
    step { t with status := .running, cause := .none } = .next t

/-! ## The datapath -/

/-- 40_datapath.md R65: the control vectors of the six opcodes, none for any other, and no row asserts both MemRead and
MemWrite or both Branch and Jump. -/
def Obligations.ControlVectors : Prop :=
  controlVector 0#6 = some ⟨true, false, false, true, false, false, false, false, .rtype⟩ ∧
  controlVector 8#6 = some ⟨false, true, false, true, false, false, false, false, .add⟩ ∧
  controlVector 35#6 = some ⟨false, true, true, true, true, false, false, false, .add⟩ ∧
  controlVector 43#6 = some ⟨false, true, false, false, false, true, false, false, .add⟩ ∧
  controlVector 4#6 = some ⟨false, false, false, false, false, false, true, false, .sub⟩ ∧
  controlVector 2#6 = some ⟨false, false, false, false, false, false, false, true, .add⟩ ∧
  (∀ op : BitVec 6, controlVector op = none ↔ op.toNat ∉ [0, 2, 4, 8, 35, 43]) ∧
  ∀ (op : BitVec 6) (cv : ControlVector), controlVector op = some cv →
    ¬ (cv.memRead = true ∧ cv.memWrite = true) ∧ ¬ (cv.branch = true ∧ cv.jump = true)

/-- 40_datapath.md R72: no opcode and no function reaches SHL16 or NOT, and SLTU only function 43 under
FUNCT43_MODE = SLTU. -/
def Obligations.UnreachableAluOperations : Prop :=
  ∀ (c : Config) (op funct : BitVec 6) (cv : ControlVector) (ctl : AluCtl),
    controlVector op = some cv → aluDispatch c cv funct = some ctl →
    ctl ≠ .shl16 ∧ ctl ≠ .not ∧
    (ctl = .sltu → op = 0#6 ∧ funct = 43#6 ∧ c.funct43Mode = .sltu)

/-- 40_datapath.md R70, R71, R76: the ALU on the integers. The 1 and 0 are the spec's decision D11 (log entry 6). -/
def Obligations.AluArithmetic : Prop :=
  ∀ a b : Word,
    (aluResult .add a b).toNat = (a.toNat + b.toNat) % 2 ^ 32 ∧
    (aluResult .sub a b).toInt = (a.toInt - b.toInt).bmod (2 ^ 32) ∧
    aluResult .add (aluResult .sub a b) b = a ∧
    (aluResult .slt a b = 1#32 ↔ a.toInt < b.toInt) ∧ (aluResult .slt a b = 0#32 ↔ b.toInt ≤ a.toInt) ∧
    (aluResult .sltu a b = 1#32 ↔ a.toNat < b.toNat) ∧ (aluResult .sltu a b = 0#32 ↔ b.toNat ≤ a.toNat) ∧
    (∀ i : Nat, (aluResult .and a b).getLsbD i = (a.getLsbD i && b.getLsbD i)) ∧
    (∀ i : Nat, (aluResult .or a b).getLsbD i = (a.getLsbD i || b.getLsbD i)) ∧
    (aluResult .shl16 a b).toNat = b.toNat % 2 ^ 16 * 2 ^ 16 ∧
    (aluResult .not a b).toNat = 2 ^ 32 - 1 - a.toNat ∧
    (zeroFlag (aluResult .sub a b) = true ↔ a = b)

/-- 40_datapath.md R67. -/
def Obligations.SignExtension : Prop :=
  ∀ offset : Offset,
    (sext32 offset).extractLsb' 0 16 = offset ∧
    (sext32 offset).extractLsb' 16 16 = (if offset.getLsbD 15 then 0xFFFF#16 else 0#16) ∧
    (sext32 offset).toInt = offset.toInt

/-- 40_datapath.md R82, on the integers, in both modes. Which mode the hardware has is the spec's D6 (log entry 4). -/
def Obligations.JumpTargets : Prop :=
  ∀ (p4 : Word) (target : Target),
    (jumpTarget .segment p4 target).toNat = p4.toNat / 2 ^ 28 * 2 ^ 28 + 4 * target.toNat ∧
    (jumpTarget .direct p4 target).toNat = 4 * target.toNat

/-- 40_datapath.md R84: were Branch, with zero, and Jump both set, Jump wins; no opcode sets both. -/
def Obligations.JumpWins : Prop :=
  (∀ (c : Config) (cv : ControlVector) (f : Fields) (zero : Bool) (pc : Word),
    cv.branch = true → zero = true → cv.jump = true →
    nextPc c cv f zero pc = jumpTarget c.jumpMode (pc + 4#32) f.target) ∧
  ∀ (op : BitVec 6) (cv : ControlVector), controlVector op = some cv → ¬ (cv.branch = true ∧ cv.jump = true)

/-- 40_datapath.md R78 (the spec's decision D12): were MemRead and MemWrite both set, the read comes first and an illegal
address stops both. -/
def Obligations.ReadBeforeWrite : Prop :=
  ∀ (c : Config) (cv : ControlVector) (result data2 : Word) (m : Memory),
    cv.memRead = true → cv.memWrite = true →
    (legal c result = true →
      memoryStage c cv result data2 m = some (memRead m result, memWrite m result data2)) ∧
    (legal c result = false → memoryStage c cv result data2 m = none)

/-- 40_datapath.md R85: the next pc is aligned when the pc is, under every configuration. -/
def Obligations.PcStaysAligned : Prop :=
  ∀ (c : Config) (s t : State), s.pc.toNat % 4 = 0 → datapathStep c s = .next t → t.pc.toNat % 4 = 0

/-- 10_state.md R17: a taken branch whose target wraps below 0 lands at or above 2^32 - 2^17 + 4, which is not legal. The
modulus is the spec's D8 (log entry 7). -/
def Obligations.WrappedBranchIsIllegal : Prop :=
  ∀ (r1 r2 : RegIdx) (offset : Offset) (s t : State),
    legal hardware s.pc = true → s.reg r1 = s.reg r2 →
    (s.pc.toNat : Int) + 4 + 4 * offset.toInt < 0 →
    exec (.beq r1 r2 offset) s = .next t →
    2 ^ 32 - 2 ^ 17 + 4 ≤ t.pc.toNat ∧ legal hardware t.pc = false

/-! ## The parameters -/

/-- 40_datapath.md R83: below 2^28 bytes of memory the two jump modes give the same step on every state. -/
def Obligations.JumpModesAgree : Prop :=
  ∀ (c : Config) (s : State), c.wellFormed = true → c.memBytes < 2 ^ 28 →
    datapathStep { c with jumpMode := .segment } s = datapathStep { c with jumpMode := .direct } s

/-- 40_datapath.md R75: a step that does not fetch an R-format word with funct 43 is the same under all three modes. -/
def Obligations.Funct43ModeUnobserved : Prop :=
  ∀ (c : Config) (m : Funct43Mode) (s : State),
    ¬ ((partition (memRead s.mem s.pc)).op = 0#6 ∧ (partition (memRead s.mem s.pc)).funct = 43#6) →
    datapathStep { c with funct43Mode := m } s = datapathStep c s

/-- 41_register_format.md R91: what the word of function 43 does under each mode (the spec's D7, log entry 4; the 1 and 0
its D11, log entry 6). -/
def Obligations.Funct43ByMode : Prop :=
  ∀ (c : Config) (s : State) (r1 r2 r3 : RegIdx) (ignored : BitVec 5),
    s.status = .running → legal c s.pc = true →
    memRead s.mem s.pc = 0#6 ++ r1 ++ r2 ++ r3 ++ ignored ++ 43#6 →
    let t (v : Word) : State := { s with regs := s.regs.set r3.toNat v r3.isLt, pc := s.pc + 4#32 }
    datapathStep c s =
      match c.funct43Mode with
      | .sltu => .next (t (if (s.reg r1).toNat < (s.reg r2).toNat then 1#32 else 0#32))
      | .slt => .next (t (if (s.reg r1).toInt < (s.reg r2).toInt then 1#32 else 0#32))
      | .halt => .next { s with status := .halted, cause := .unsupportedFunction }

/-! ## Invariant, launch, host -/

/-- Every step keeps the invariant. -/
def Obligations.StepKeepsInv : Prop :=
  ∀ s t : State, s.Inv → step s = .next t → t.Inv

/-- The reset state meets the invariant. -/
def Obligations.ResetInv : Prop := State.reset.Inv

/-- 70_reset_and_hazards.md R119, R120: every launch has the host's values, RUNNING and NONE (the spec's D3, D10), and
meets the invariant when its pc is aligned. -/
def Obligations.LaunchValues : Prop :=
  ∀ (initPc : Word) (initRegs : Vector Word 32) (initMem : Vector Word hardware.memWords),
    (launchState initPc initRegs initMem).pc = initPc ∧
    (∀ i : RegIdx, (launchState initPc initRegs initMem).reg i = initRegs[i.toNat]'i.isLt) ∧
    (∀ k (h : k < hardware.memWords), (launchState initPc initRegs initMem).mem.word k = initMem[k]) ∧
    (launchState initPc initRegs initMem).status = .running ∧
    (launchState initPc initRegs initMem).cause = .none ∧
    (initPc.toNat % 4 = 0 → (launchState initPc initRegs initMem).Inv)

/-- The model's reset state is the launch with pc 0 and zeros, the model's choice (log entries 1, 2). -/
def Obligations.ResetIsALaunch : Prop :=
  State.reset = launchState 0#32 (Vector.replicate 32 0#32) (Vector.replicate hardware.memWords 0#32)

/-- 70_reset_and_hazards.md R122: a HALTED core becomes RUNNING by Initialize alone, every other host operation leaves
it as it is, Inspect leaves any core as it is, and Step of a RUNNING core answers continue, or halt with its cause (the
spec's D3, D16; log entries 5, 10). -/
def Obligations.HostOperations : Prop :=
  (∀ (op : HostOp) (s t : State) (reply : HostReply), hostOp op s = .next (t, reply) →
    (∀ initPc initRegs initMem, op ≠ .launch initPc initRegs initMem) →
    (s.status = .halted → t = s) ∧ (op ≠ .step → t = s)) ∧
  ∀ s : State, s.status = .running →
    ∃ t, step s = .next t ∧
      ((t.status = .running ∧ hostOp .step s = .next (t, .continue)) ∨
       (t.status = .halted ∧ hostOp .step s = .next (t, .halt t.cause)))
end

