-- ==== Sys2Proof/Laws/Encoding.lean ====
section
/-!
SUPPORT. The fields of a word laid out in each of the three formats (30_encoding.md R43).
-/

namespace Sys2Proof

/-- The R-format layout, whatever stands in bits 10..6. -/
theorem partition_R (r1 r2 r3 : RegIdx) (ignored : BitVec 5) (funct : BitVec 6) :
    partition (0#6 ++ r1 ++ r2 ++ r3 ++ ignored ++ funct) =
      ⟨0#6, r1, r2, r3, funct, r3 ++ ignored ++ funct, r1 ++ r2 ++ r3 ++ ignored ++ funct⟩ := by
  simp only [partition, Fields.mk.injEq]
  refine ⟨?_, ?_, ?_, ?_, ?_, ?_, ?_⟩ <;>
  · apply BitVec.eq_of_getLsbD_eq
    intro i hi
    simp only [BitVec.getLsbD_extractLsb', BitVec.getLsbD_append]
    repeat' split
    all_goals first
      | omega
      | (simp [hi]; done)
      | (simp only [hi, decide_true, Bool.true_and]; congr 1; omega)

/-- The I-format layout: its opcode, registers and offset. -/
theorem partition_I (op : BitVec 6) (r1 r2 : RegIdx) (offset : Offset) :
    (partition (encodeI op r1 r2 offset)).op = op ∧ (partition (encodeI op r1 r2 offset)).r1 = r1 ∧
    (partition (encodeI op r1 r2 offset)).r2 = r2 ∧ (partition (encodeI op r1 r2 offset)).offset = offset := by
  simp only [partition, encodeI]
  refine ⟨?_, ?_, ?_, ?_⟩ <;>
  · apply BitVec.eq_of_getLsbD_eq
    intro i hi
    simp only [BitVec.getLsbD_extractLsb', BitVec.getLsbD_append]
    repeat' split
    all_goals first
      | omega
      | (simp [hi]; done)
      | (simp only [hi, decide_true, Bool.true_and]; congr 1; omega)

/-- The J-format layout: its opcode and target. -/
theorem partition_J (target : Target) :
    (partition (encodeJ target)).op = 2#6 ∧ (partition (encodeJ target)).target = target := by
  simp only [partition, encodeJ]
  refine ⟨?_, ?_⟩ <;>
  · apply BitVec.eq_of_getLsbD_eq
    intro i hi
    simp only [BitVec.getLsbD_extractLsb', BitVec.getLsbD_append]
    split
    all_goals first
      | omega
      | simp [hi]

end Sys2Proof
end

