-- ==== Sys2Proof/Laws/State.lean ====
section
/-!
SUPPORT. One lemma per field per update of State, and the laws of the register file.
-/

namespace Sys2Proof.Machine

variable (s : State) (i : RegIdx) (v t : Word) (m : Memory) (cause : HaltCause)

@[simp] theorem State.setReg_regs : (s.setReg i v).regs = s.regs.set i.toNat v i.isLt := rfl
@[simp] theorem State.setReg_pc : (s.setReg i v).pc = s.pc := rfl
@[simp] theorem State.setReg_mem : (s.setReg i v).mem = s.mem := rfl
@[simp] theorem State.setReg_status : (s.setReg i v).status = s.status := rfl
@[simp] theorem State.setReg_cause : (s.setReg i v).cause = s.cause := rfl

@[simp] theorem State.setPc_regs : (s.setPc t).regs = s.regs := rfl
@[simp] theorem State.setPc_pc : (s.setPc t).pc = t := rfl
@[simp] theorem State.setPc_mem : (s.setPc t).mem = s.mem := rfl
@[simp] theorem State.setPc_status : (s.setPc t).status = s.status := rfl
@[simp] theorem State.setPc_cause : (s.setPc t).cause = s.cause := rfl

@[simp] theorem State.setMem_regs : (s.setMem m).regs = s.regs := rfl
@[simp] theorem State.setMem_pc : (s.setMem m).pc = s.pc := rfl
@[simp] theorem State.setMem_mem : (s.setMem m).mem = m := rfl
@[simp] theorem State.setMem_status : (s.setMem m).status = s.status := rfl
@[simp] theorem State.setMem_cause : (s.setMem m).cause = s.cause := rfl

@[simp] theorem State.halt_regs : (s.halt cause).regs = s.regs := rfl
@[simp] theorem State.halt_pc : (s.halt cause).pc = s.pc := rfl
@[simp] theorem State.halt_mem : (s.halt cause).mem = s.mem := rfl
@[simp] theorem State.halt_status : (s.halt cause).status = .halted := rfl
@[simp] theorem State.halt_cause : (s.halt cause).cause = cause := rfl

@[simp] theorem State.setPc_reg : (s.setPc t).reg i = s.reg i := rfl
@[simp] theorem State.setMem_reg : (s.setMem m).reg i = s.reg i := rfl
@[simp] theorem State.halt_reg : (s.halt cause).reg i = s.reg i := rfl

/-- A register reads what was last written to it, register 0 included. -/
@[simp] theorem State.reg_setReg_same : (s.setReg i v).reg i = v := by
  simp [State.reg, State.setReg]

/-- A register write leaves every other register alone. -/
theorem State.reg_setReg_ne {k : RegIdx} (h : k ≠ i) : (s.setReg i v).reg k = s.reg k := by
  have h' : i.toNat ≠ k.toNat := fun e => h (BitVec.eq_of_toNat_eq e.symm)
  simp [State.reg, State.setReg, h']

/-- Halt entry answers the halted state, whatever the state. -/
@[simp] theorem raiseHalt_eq : raiseHalt cause s = .next (s.halt cause) := rfl

end Sys2Proof.Machine
end

