-- ==== Sys2Proof/Laws/Operands.lean ====
section
/-!
SUPPORT. The laws of the ALU, the Zero flag and the targets.
-/

namespace Sys2Proof.Machine

@[simp] theorem aluResult_add (a b : Word) : aluResult .add a b = a + b := rfl
@[simp] theorem aluResult_sub (a b : Word) : aluResult .sub a b = a - b := rfl
@[simp] theorem aluResult_and (a b : Word) : aluResult .and a b = a &&& b := rfl
@[simp] theorem aluResult_or (a b : Word) : aluResult .or a b = a ||| b := rfl
@[simp] theorem aluResult_slt (a b : Word) : aluResult .slt a b = truthWord (a.slt b) := rfl
@[simp] theorem aluResult_sltu (a b : Word) : aluResult .sltu a b = truthWord (a.ult b) := rfl

/-- Zero of a difference is equality of its operands (44_control_transfer.md R97). -/
@[simp] theorem zeroFlag_sub (a b : Word) : zeroFlag (a - b) = (a == b) := by
  rw [Bool.eq_iff_iff]
  simp only [zeroFlag, beq_iff_eq]
  exact BitVec.sub_eq_iff_eq_add.trans (by simp)

/-- The two low bits are clear exactly at a multiple of 4. -/
theorem aligned_iff (a : Word) : a.extractLsb' 0 2 = 0#2 ↔ a.toNat % 4 = 0 := by
  rw [← BitVec.toNat_inj]
  simp

/-- An aligned word plus an aligned word is aligned. -/
theorem aligned_add {a b : Word} (ha : a.extractLsb' 0 2 = 0#2) (hb : b.extractLsb' 0 2 = 0#2) :
    (a + b).extractLsb' 0 2 = 0#2 := by
  rw [aligned_iff] at *
  rw [BitVec.toNat_add]
  omega

theorem aligned_shift2 (a : Word) : (a <<< 2).extractLsb' 0 2 = 0#2 := by
  rw [← BitVec.toNat_inj]
  simp [Nat.shiftLeft_eq]

/-- The jump target is a multiple of 4 (40_datapath.md R82). -/
theorem aligned_jumpTarget (m : JumpMode) (p4 : Word) (t : Target) :
    (jumpTarget m p4 t).extractLsb' 0 2 = 0#2 := by
  cases m
  all_goals
    apply BitVec.eq_of_getLsbD_eq
    intro i hi
    simp only [jumpTarget, BitVec.getLsbD_extractLsb', BitVec.getLsbD_append]
    simp [hi]

theorem aligned_seqPc {s : State} (h : s.pc.extractLsb' 0 2 = 0#2) :
    s.seqPc.extractLsb' 0 2 = 0#2 :=
  aligned_add h (by decide)

theorem aligned_branchTarget {p : Word} (h : p.extractLsb' 0 2 = 0#2) (o : Offset) :
    (branchTarget p o).extractLsb' 0 2 = 0#2 :=
  aligned_add h (aligned_shift2 _)

end Sys2Proof.Machine
end

