-- ==== Sys2Proof/Laws/Exec.lean ====
section
/-!
SUPPORT. What each shared operation of the meanings can do, and what a step can do.
-/

namespace Sys2Proof.Machine

/-- A load either completes with the word at a legal address, or halts. -/
theorem loadWord_cases {c : Config} {ea : Word} {r2 : RegIdx} {s t : State}
    (h : loadWord c ea r2 s = .next t) :
    (legal c ea = true ∧ t = (s.setReg r2 (memRead s.mem ea)).setPc s.seqPc) ∨
    (legal c ea = false ∧ t = s.halt .invalidMemoryAddress) := by
  unfold loadWord at h
  split at h
  · next hl => exact .inl ⟨hl, by injection h with h; exact h.symm⟩
  · next hl => exact .inr ⟨by simpa using hl, by injection h with h; exact h.symm⟩

/-- A store either completes at a legal address, or halts. -/
theorem storeWord_cases {c : Config} {ea v : Word} {s t : State}
    (h : storeWord c ea v s = .next t) :
    (legal c ea = true ∧ t = (s.setMem (memWrite s.mem ea v)).setPc s.seqPc) ∨
    (legal c ea = false ∧ t = s.halt .invalidMemoryAddress) := by
  unfold storeWord at h
  split at h
  · next hl => exact .inl ⟨hl, by injection h with h; exact h.symm⟩
  · next hl => exact .inr ⟨by simpa using hl, by injection h with h; exact h.symm⟩

/-- What a step that answers a next state did: it halted at fetch, halted at decode, or ran an instruction. -/
theorem step_cases {s t : State} (h : step s = .next t) :
    s.status = .running ∧
    ((legal hardware s.pc = false ∧ t = s.halt .invalidFetchAddress) ∨
     (legal hardware s.pc = true ∧
       ((∃ e, decode hardware (memRead s.mem s.pc) = .error e ∧ t = s.halt e.cause) ∨
        (∃ i, decode hardware (memRead s.mem s.pc) = .ok i ∧ exec i s = .next t)))) := by
  unfold step at h
  split at h
  · cases h
  · next hs =>
    refine ⟨hs, ?_⟩
    by_cases hl : legal hardware s.pc = true
    · simp only [fetch, hl, if_true] at h
      split at h
      · next e he => exact .inr ⟨hl, .inl ⟨e, he, by injection h with h; exact h.symm⟩⟩
      · next i hi => exact .inr ⟨hl, .inr ⟨i, hi, h⟩⟩
    · simp only [fetch, hl, raiseHalt_eq] at h
      exact .inl ⟨by simpa using hl, by injection h with h; exact h.symm⟩

end Sys2Proof.Machine
end

