-- ==== Sys2Proof/Laws/Memory.lean ====
section
/-!
SUPPORT. The laws of the memory list: a read after a write, the canonical form, and the same for whole words.
-/

namespace Sys2Proof.Machine

/-! ## Bytes -/

@[simp] theorem Memory.readByte_nil (a : Nat) : Memory.readByte [] a = unlistedByte := rfl

theorem Memory.readByte_cons (k a : Nat) (b : Byte) (rest : Memory) :
    Memory.readByte ((k, b) :: rest) a = if k = a then b else Memory.readByte rest a := rfl

/-- An address no cell names reads as unlisted. -/
theorem Memory.readByte_of_forall_ne (m : Memory) (a : Nat) (h : ∀ c ∈ m, c.1 ≠ a) :
    m.readByte a = unlistedByte := by
  induction m with
  | nil => rfl
  | cons c rest ih =>
    obtain ⟨k, b⟩ := c
    rw [Memory.readByte_cons, if_neg (h (k, b) (by simp))]
    exact ih fun c hc => h c (by simp [hc])

theorem Memory.readByte_consByte (m : Memory) (a k : Nat) (v : Byte) (h : ∀ c ∈ m, c.1 ≠ a) :
    (Memory.consByte a v m).readByte k = if k = a then v else m.readByte k := by
  unfold Memory.consByte
  split
  · next hv =>
    split
    · next e => rw [e, Memory.readByte_of_forall_ne m a h, hv]
    · rfl
  · rw [Memory.readByte_cons]
    simp [eq_comm]

/-- The canonical form of a memory with a first cell. -/
theorem Memory.wf_cons (k : Nat) (b : Byte) (rest : Memory) :
    Memory.wf ((k, b) :: rest) ↔ (∀ c ∈ rest, k < c.1) ∧ b ≠ unlistedByte ∧ Memory.wf rest := by
  simp only [Memory.wf, List.pairwise_cons, List.forall_mem_cons]
  tauto

theorem Memory.wf_nil : Memory.wf [] := by simp [Memory.wf]

theorem Memory.wf_consByte (m : Memory) (a : Nat) (v : Byte) (h : m.wf) (ha : ∀ c ∈ m, a < c.1) :
    (Memory.consByte a v m).wf := by
  unfold Memory.consByte
  split
  · exact h
  · next hv => exact (Memory.wf_cons a v m).2 ⟨ha, hv, h⟩

theorem Memory.mem_consByte {m : Memory} {a : Nat} {v : Byte} {c : Host.Cell}
    (h : c ∈ Memory.consByte a v m) : c.1 = a ∨ c ∈ m := by
  unfold Memory.consByte at h
  split at h
  · exact .inr h
  · rcases List.mem_cons.1 h with rfl | h
    · exact .inl rfl
    · exact .inr h

/-- A byte write lists no address but the one written. -/
theorem Memory.mem_writeByte {m : Memory} {a : Nat} {v : Byte} {c : Host.Cell}
    (h : c ∈ m.writeByte a v) : c.1 = a ∨ c ∈ m := by
  induction m with
  | nil => exact Memory.mem_consByte h
  | cons d rest ih =>
    obtain ⟨k, b⟩ := d
    simp only [Memory.writeByte] at h
    split at h
    · exact Memory.mem_consByte h
    · split at h
      · exact (Memory.mem_consByte h).imp_right (List.mem_cons_of_mem _)
      · rcases List.mem_cons.1 h with rfl | h
        · simp
        · exact (ih h).imp_right (List.mem_cons_of_mem _)

/-- A byte write keeps the canonical form. -/
theorem Memory.wf_writeByte (m : Memory) (a : Nat) (v : Byte) (h : m.wf) : (m.writeByte a v).wf := by
  induction m with
  | nil => exact Memory.wf_consByte [] a v h (by simp)
  | cons d rest ih =>
    obtain ⟨k, b⟩ := d
    obtain ⟨hk, hb, hr⟩ := (Memory.wf_cons k b rest).1 h
    simp only [Memory.writeByte]
    split
    · next hlt =>
      refine Memory.wf_consByte _ a v h fun c hc => ?_
      rcases List.mem_cons.1 hc with rfl | hc
      · exact hlt
      · exact hlt.trans (hk c hc)
    · next hge =>
      split
      · next e => exact Memory.wf_consByte rest a v hr (e ▸ hk)
      · next hne =>
        refine (Memory.wf_cons k b _).2 ⟨fun c hc => ?_, hb, ih hr⟩
        rcases Memory.mem_writeByte hc with e | hc
        · omega
        · exact hk c hc

/-- A read after a write: the byte written there, every other byte as before. -/
theorem Memory.readByte_writeByte (m : Memory) (a k : Nat) (v : Byte) (h : m.wf) :
    (m.writeByte a v).readByte k = if k = a then v else m.readByte k := by
  induction m with
  | nil => exact Memory.readByte_consByte [] a k v (by simp)
  | cons d rest ih =>
    obtain ⟨j, b⟩ := d
    obtain ⟨hj, hb, hr⟩ := (Memory.wf_cons j b rest).1 h
    simp only [Memory.writeByte]
    split
    · next hlt =>
      refine Memory.readByte_consByte _ a k v fun c hc => ?_
      rcases List.mem_cons.1 hc with rfl | hc
      · exact hlt.ne'
      · exact (hlt.trans (hj c hc)).ne'
    · split
      · next hge e =>
        subst e
        rw [Memory.readByte_consByte rest a k v fun c hc => (hj c hc).ne', Memory.readByte_cons]
        split
        · rfl
        · next hne => rw [if_neg (Ne.symm hne)]
      · next hge hne =>
        rw [Memory.readByte_cons, Memory.readByte_cons, ih hr]
        split
        · next e => rw [if_neg (by omega)]
        · rfl

/-- Two memories in canonical form that read alike are the same data. -/
theorem Memory.eq_of_readByte (m m' : Memory) (h : m.wf) (h' : m'.wf)
    (hr : ∀ a, m.readByte a = m'.readByte a) : m = m' := by
  induction m generalizing m' with
  | nil =>
    cases m' with
    | nil => rfl
    | cons d r =>
      obtain ⟨k, b⟩ := d
      have := hr k
      simp only [Memory.readByte_nil, Memory.readByte_cons, if_true] at this
      exact absurd this.symm ((Memory.wf_cons k b r).1 h').2.1
  | cons d r ih =>
    obtain ⟨k, b⟩ := d
    obtain ⟨hk, hb, hw⟩ := (Memory.wf_cons k b r).1 h
    cases m' with
    | nil =>
      have := hr k
      simp only [Memory.readByte_nil, Memory.readByte_cons, if_true] at this
      exact absurd this hb
    | cons d' r' =>
      obtain ⟨k', b'⟩ := d'
      obtain ⟨hk', hb', hw'⟩ := (Memory.wf_cons k' b' r').1 h'
      have absent : ∀ j, j ≤ k → Memory.readByte r j = unlistedByte := fun j hj =>
        Memory.readByte_of_forall_ne r j fun c hc => (hj.trans_lt (hk c hc)).ne'
      have absent' : ∀ j, j ≤ k' → Memory.readByte r' j = unlistedByte := fun j hj =>
        Memory.readByte_of_forall_ne r' j fun c hc => (hj.trans_lt (hk' c hc)).ne'
      have hkk : k = k' := by
        rcases Nat.lt_trichotomy k k' with hlt | e | hlt
        · have := hr k
          rw [Memory.readByte_cons, if_pos rfl, Memory.readByte_cons, if_neg hlt.ne', absent' k hlt.le] at this
          exact absurd this hb
        · exact e
        · have := hr k'
          rw [Memory.readByte_cons, if_neg hlt.ne', Memory.readByte_cons, if_pos rfl, absent k' hlt.le] at this
          exact absurd this.symm hb'
      subst hkk
      have hbb := hr k
      simp only [Memory.readByte_cons, if_true] at hbb
      subst hbb
      congr 1
      refine ih r' hw hw' fun a => ?_
      have := hr a
      rw [Memory.readByte_cons, Memory.readByte_cons] at this
      split at this
      · next e => rw [absent a e.ge, absent' a e.ge]
      · exact this

/-- A byte write leaves every other byte alone, in a memory of any form. -/
theorem Memory.readByte_writeByte_ne (m : Memory) (a k : Nat) (v : Byte) (hk : k ≠ a) :
    (m.writeByte a v).readByte k = m.readByte k := by
  have hc : ∀ rest : Memory, (Memory.consByte a v rest).readByte k = rest.readByte k := by
    intro rest
    unfold Memory.consByte
    split
    · rfl
    · rw [Memory.readByte_cons, if_neg (Ne.symm hk)]
  induction m with
  | nil => exact hc []
  | cons d rest ih =>
    obtain ⟨j, b⟩ := d
    simp only [Memory.writeByte]
    split
    · exact hc _
    · split
      · next e => rw [hc, Memory.readByte_cons, if_neg (by omega)]
      · rw [Memory.readByte_cons, Memory.readByte_cons, ih]

/-! ## Words -/

/-- A word write keeps the canonical form. -/
theorem Memory.wf_setWord (m : Memory) (k : Nat) (v : Word) (h : m.wf) : (m.setWord k v).wf := by
  unfold Memory.setWord
  exact Memory.wf_writeByte _ _ _ (Memory.wf_writeByte _ _ _ (Memory.wf_writeByte _ _ _
    (Memory.wf_writeByte _ _ _ h)))

/-- A word write lists nothing at or past a bound its four bytes lie below. -/
theorem Memory.within_setWord {n : Nat} (m : Memory) (k : Nat) (v : Word) (h : m.within n)
    (hk : 4 * k + 3 < n) : (m.setWord k v).within n := by
  intro c hc
  unfold Memory.setWord at hc
  rcases Memory.mem_writeByte hc with e | hc
  · omega
  rcases Memory.mem_writeByte hc with e | hc
  · omega
  rcases Memory.mem_writeByte hc with e | hc
  · omega
  rcases Memory.mem_writeByte hc with e | hc
  · omega
  exact h c hc

/-- Every byte after a word write: one of its four, or as before. -/
theorem Memory.readByte_setWord (m : Memory) (k a : Nat) (v : Word) (h : m.wf) :
    (m.setWord k v).readByte a =
      if a = 4 * k + 3 then v.extractLsb' 24 8
      else if a = 4 * k + 2 then v.extractLsb' 16 8
      else if a = 4 * k + 1 then v.extractLsb' 8 8
      else if a = 4 * k then v.extractLsb' 0 8
      else m.readByte a := by
  unfold Memory.setWord
  have h1 := Memory.wf_writeByte m (4 * k) (v.extractLsb' 0 8) h
  have h2 := Memory.wf_writeByte _ (4 * k + 1) (v.extractLsb' 8 8) h1
  have h3 := Memory.wf_writeByte _ (4 * k + 2) (v.extractLsb' 16 8) h2
  rw [Memory.readByte_writeByte _ _ _ _ h3, Memory.readByte_writeByte _ _ _ _ h2,
    Memory.readByte_writeByte _ _ _ _ h1, Memory.readByte_writeByte _ _ _ _ h]

/-- A word write leaves every byte outside its four alone, in a memory of any form. -/
theorem Memory.readByte_setWord_outside (m : Memory) (k a : Nat) (v : Word) (h : a < 4 * k ∨ 4 * k + 4 ≤ a) :
    (m.setWord k v).readByte a = m.readByte a := by
  unfold Memory.setWord
  rw [Memory.readByte_writeByte_ne _ _ _ _ (by omega), Memory.readByte_writeByte_ne _ _ _ _ (by omega),
    Memory.readByte_writeByte_ne _ _ _ _ (by omega), Memory.readByte_writeByte_ne _ _ _ _ (by omega)]

/-- Four bytes of a word, put together again. -/
theorem word_of_bytes (v : Word) :
    v.extractLsb' 24 8 ++ v.extractLsb' 16 8 ++ v.extractLsb' 8 8 ++ v.extractLsb' 0 8 = v := by
  apply BitVec.eq_of_getLsbD_eq
  intro i hi
  simp only [BitVec.getLsbD_append, BitVec.getLsbD_extractLsb']
  by_cases h0 : i < 8
  · simp [h0]
  by_cases h1 : i - 8 < 8
  · rw [if_neg h0, if_pos h1, show 8 + (i - 8) = i by omega]
    simp [h1]
  by_cases h2 : i - 8 - 8 < 8
  · rw [if_neg h0, if_neg h1, if_pos h2, show 16 + (i - 8 - 8) = i by omega]
    simp [h2]
  rw [if_neg h0, if_neg h1, if_neg h2, show 24 + (i - 8 - 8 - 8) = i by omega]
  simp [show i - 8 - 8 - 8 < 8 by omega]

/-- The word written. -/
theorem Memory.word_setWord_same (m : Memory) (k : Nat) (v : Word) (h : m.wf) :
    (m.setWord k v).word k = v := by
  simp only [Memory.word, Memory.readByte_setWord m k _ v h]
  simpa using word_of_bytes v

/-- Every other word. -/
theorem Memory.word_setWord_ne (m : Memory) (k j : Nat) (v : Word) (h : m.wf) (hj : j ≠ k) :
    (m.setWord k v).word j = m.word j := by
  have hb : ∀ d, d < 4 → (m.setWord k v).readByte (4 * j + d) = m.readByte (4 * j + d) := by
    intro d hd
    rw [Memory.readByte_setWord m k _ v h]
    repeat rw [if_neg (by omega)]
  have h0 := hb 0 (by omega)
  simp only [Nat.add_zero] at h0
  simp only [Memory.word, hb 3 (by omega), hb 2 (by omega), hb 1 (by omega), h0]

/-! ## Legal addresses -/

theorem legal_iff (c : Config) (a : Word) :
    legal c a = true ↔ a.extractLsb' 0 2 = 0#2 ∧ a.toNat < c.memBytes := by
  simp [legal]

theorem wordIndex_eq (a : Word) : wordIndex a = a.toNat / 4 := by
  simp [wordIndex, Nat.shiftRight_eq_div_pow]

/-- The four bytes of a legal address lie at it, and inside the array when MEM_BYTES is a multiple of 4. -/
theorem legal_bytes {c : Config} {a : Word} (h : legal c a = true) :
    4 * wordIndex a = a.toNat ∧ (c.memBytes % 4 = 0 → 4 * wordIndex a + 3 < c.memBytes) := by
  obtain ⟨h1, h2⟩ := (legal_iff c a).1 h
  rw [aligned_iff] at h1
  rw [wordIndex_eq]
  omega

/-- A store to a legal address keeps the canonical form and the bound. -/
theorem memWrite_wf (m : Memory) (a v : Word) (h : m.wf) : (memWrite m a v).wf :=
  Memory.wf_setWord m _ v h

theorem memWrite_within {m : Memory} {a v : Word} (h : m.within hardware.memBytes)
    (ha : legal hardware a = true) : (memWrite m a v).within hardware.memBytes :=
  Memory.within_setWord m _ v h ((legal_bytes ha).2 rfl)

/-- INIT_MEM gives a memory in canonical form. -/
theorem Memory.wf_ofWordsFrom (ws : List Word) (k : Nat) : (Memory.ofWordsFrom k ws).wf := by
  induction ws generalizing k with
  | nil => exact Memory.wf_nil
  | cons w ws ih => exact Memory.wf_setWord _ k w (ih (k + 1))

/-- INIT_MEM lists nothing past its last word. -/
theorem Memory.within_ofWordsFrom (ws : List Word) (k n : Nat) (h : 4 * (k + ws.length) ≤ n) :
    (Memory.ofWordsFrom k ws).within n := by
  induction ws generalizing k with
  | nil => intro c hc; cases hc
  | cons w ws ih =>
    simp only [List.length_cons] at h
    exact Memory.within_setWord _ k w (ih (k + 1) (by omega)) (by omega)

end Sys2Proof.Machine
end

