-- ==== Sys2Proof/Laws/PerInstr.lean ====
section
/-!
SUPPORT. Facts about every instruction as syntax, one lemma per constructor: which opcode the encoder writes.
-/

namespace Sys2Proof

namespace Laws.Opcode

/-- The opcode of an instruction (30_encoding.md R48). -/
def opcode : Instr → BitVec 6
  | .add _ _ _ => 0#6
  | .sub _ _ _ => 0#6
  | .and _ _ _ => 0#6
  | .or _ _ _ => 0#6
  | .slt _ _ _ => 0#6
  | .sltu _ _ _ => 0#6
  | .addi _ _ _ => 8#6
  | .lw _ _ _ => 35#6
  | .sw _ _ _ => 43#6
  | .beq _ _ _ => 4#6
  | .j _ => 2#6

/-- The encoder writes the instruction's opcode in bits 31..26. -/
def Statement (i : Instr) : Prop := (partition (encode i)).op = opcode i

theorem op_encodeR (r1 r2 r3 : RegIdx) (f : BitVec 6) : (partition (encodeR r1 r2 r3 f)).op = 0#6 :=
  congrArg Fields.op (partition_R r1 r2 r3 0#5 f)

theorem op_encodeI (op : BitVec 6) (r1 r2 : RegIdx) (o : Offset) : (partition (encodeI op r1 r2 o)).op = op :=
  (partition_I op r1 r2 o).1

theorem add (r1 r2 r3 : RegIdx) : Statement (.add r1 r2 r3) := op_encodeR r1 r2 r3 _
theorem sub (r1 r2 r3 : RegIdx) : Statement (.sub r1 r2 r3) := op_encodeR r1 r2 r3 _
theorem and (r1 r2 r3 : RegIdx) : Statement (.and r1 r2 r3) := op_encodeR r1 r2 r3 _
theorem or (r1 r2 r3 : RegIdx) : Statement (.or r1 r2 r3) := op_encodeR r1 r2 r3 _
theorem slt (r1 r2 r3 : RegIdx) : Statement (.slt r1 r2 r3) := op_encodeR r1 r2 r3 _
theorem sltu (r1 r2 r3 : RegIdx) : Statement (.sltu r1 r2 r3) := op_encodeR r1 r2 r3 _
theorem addi (r1 r2 : RegIdx) (offset : Offset) : Statement (.addi r1 r2 offset) := op_encodeI _ r1 r2 offset
theorem lw (r1 r2 : RegIdx) (offset : Offset) : Statement (.lw r1 r2 offset) := op_encodeI _ r1 r2 offset
theorem sw (r1 r2 : RegIdx) (offset : Offset) : Statement (.sw r1 r2 offset) := op_encodeI _ r1 r2 offset
theorem beq (r1 r2 : RegIdx) (offset : Offset) : Statement (.beq r1 r2 offset) := op_encodeI _ r1 r2 offset
theorem j (target : Target) : Statement (.j target) := (partition_J target).1

end Laws.Opcode

end Sys2Proof
end

