-- ==== Sys2Proof/Tests/Slice0.lean ====
section
/-!
SUPPORT. Tests: words and results from spec/95_test_vectors.md, the checks of WellFormed, and for each statement with
hypotheses a concrete state that meets them.
-/

namespace Sys2Proof.Tests

open Sys2Proof.Machine

/-- The state after an outcome; the reset state where there is none. -/
def after (o : Host.Outcome State Fault Refusal) : State :=
  match o with
  | .next t => t
  | .fault _ => State.reset
  | .refused _ => State.reset

/-- Whether an outcome is a next state. -/
def isNext (o : Host.Outcome State Fault Refusal) : Bool :=
  match o with
  | .next _ => true
  | .fault _ => false
  | .refused _ => false

theorem eq_next_after {o : Host.Outcome State Fault Refusal} (h : isNext o = true) : o = .next (after o) := by
  cases o with
  | next s => rfl
  | fault r => simp [isNext] at h
  | refused r => simp [isNext] at h

/-- A running state at a pc, with a word there and some registers set. -/
def st (pc w : Word) (regs : List (RegIdx × Word)) : State :=
  { regs.foldl (fun s p => s.setReg p.1 p.2) State.reset with pc := pc, mem := memWrite [] pc w }

/-! ## WellFormed: each check refuses an ill-formed term -/

theorem test_hardware_wellFormed : hardware.wellFormed = true := by decide
theorem test_wellFormed_refuses_unaligned_size :
    Config.wellFormed { hardware with memBytes := 65538 } = false := by decide
theorem test_wellFormed_refuses_zero_size : Config.wellFormed { hardware with memBytes := 0 } = false := by decide
theorem test_wellFormed_refuses_large_size :
    Config.wellFormed { hardware with memBytes := 2 ^ 32 + 4 } = false := by decide
theorem test_wellFormed_refuses_sltu_under_slt :
    Instr.wellFormed { hardware with funct43Mode := .slt } (.sltu 1#5 2#5 3#5) = false := by decide
theorem test_wellFormed_refuses_sltu_under_halt :
    Instr.wellFormed { hardware with funct43Mode := .halt } (.sltu 1#5 2#5 3#5) = false := by decide

/-! ## Decoding: words of 95_test_vectors.md 2.4 to 2.8, and bit patterns of 30_encoding.md R43 -/

theorem test_decode_add : decode hardware 0b00000000001000100001100000100000#32 = .ok (.add 1#5 2#5 3#5) := by decide
theorem test_decode_sub : decode hardware 0x00221822#32 = .ok (.sub 1#5 2#5 3#5) := by decide
theorem test_decode_and : decode hardware 0x00221824#32 = .ok (.and 1#5 2#5 3#5) := by decide
theorem test_decode_or : decode hardware 0x00221825#32 = .ok (.or 1#5 2#5 3#5) := by decide
theorem test_decode_slt : decode hardware 0x0022182A#32 = .ok (.slt 1#5 2#5 3#5) := by decide
theorem test_decode_sltu : decode hardware 0x0022182B#32 = .ok (.sltu 1#5 2#5 3#5) := by decide
theorem test_decode_ignored_bits : decode hardware 0x002218A0#32 = .ok (.add 1#5 2#5 3#5) := by decide
theorem test_decode_addi : decode hardware 0b00100000001000101111111111111111#32 = .ok (.addi 1#5 2#5 0xFFFF#16) := by
  decide
theorem test_decode_addi_funct_not_read : decode hardware 0x20000020#32 = .ok (.addi 0#5 0#5 0x20#16) := by decide
theorem test_decode_lw : decode hardware 0b10001100001000100000000000000100#32 = .ok (.lw 1#5 2#5 4#16) := by decide
theorem test_decode_sw : decode hardware 0xAC220004#32 = .ok (.sw 1#5 2#5 4#16) := by decide
theorem test_decode_beq : decode hardware 0b00010000001000100000000000000011#32 = .ok (.beq 1#5 2#5 3#16) := by decide
theorem test_decode_j : decode hardware 0b00001000000000000000000001000000#32 = .ok (.j 0x40#26) := by decide
theorem test_decode_zero : decode hardware 0#32 = .error (.unsupportedFunction 0#6) := by decide
theorem test_decode_addu : decode hardware 0x00221821#32 = .error (.unsupportedFunction 33#6) := by decide
theorem test_decode_bne : decode hardware 0x14220003#32 = .error (.unsupportedOpcode 5#6) := by decide
theorem test_decode_ones : decode hardware 0xFFFFFFFF#32 = .error (.unsupportedOpcode 63#6) := by decide
theorem test_decode_sltu_under_slt :
    decode { hardware with funct43Mode := .slt } 0x0022182B#32 = .ok (.slt 1#5 2#5 3#5) := by decide
theorem test_decode_sltu_under_halt :
    decode { hardware with funct43Mode := .halt } 0x0022182B#32 = .error (.unsupportedFunction 43#6) := by decide
theorem test_decodeTableWord : decodeTableWord 32 0xAC220004 = some (.sw 1#5 2#5 4#16) := by decide
theorem test_encode_beq : encode (.beq 1#5 2#5 3#16) = 0x10220003#32 := by decide
theorem test_encode_slt : encode (.slt 1#5 2#5 3#5) = 0x0022182A#32 := by decide
theorem test_rows_disjoint :
    opcodeRows.Pairwise (fun r r' => r.value &&& r'.mask ≠ r'.value &&& r.mask) := by decide

/-! ## The ALU and sign extension: 95_test_vectors.md section 1, 2.1, 2.2 -/

theorem test_alu_sub_zero : zeroFlag (aluResult .sub 5#32 5#32) = true := by decide
theorem test_alu_sub_nonzero : zeroFlag (aluResult .sub 5#32 3#32) = false := by decide
theorem test_alu_shl16 : aluResult .shl16 0x12345678#32 0xABCD#32 = 0xABCD0000#32 := by decide
theorem test_alu_not : aluResult .not 0x12345678#32 0#32 = 0xEDCBA987#32 := by decide
theorem test_alu_codes : ∀ n : BitVec 3, (AluCtl.ofCode n).code = n := by decide
theorem test_cause_codes :
    [HaltCause.none, .invalidFetchAddress, .unsupportedOpcode, .unsupportedFunction, .invalidMemoryAddress].map
      HaltCause.code = [0, 1, 2, 3, 4] := by decide
theorem test_sext32 : sext32 0x8000#16 = 0xFFFF8000#32 := by decide
theorem test_branchDisp : branchDisp 0xABCD#16 = 0xFFFEAF34#32 := by decide
theorem test_jump_segment : jumpTarget .segment 0x10000000#32 1#26 = 0x10000004#32 := by decide
theorem test_jump_direct : jumpTarget .direct 0x10000000#32 1#26 = 0x00000004#32 := by decide

/-! ## One step each: 95_test_vectors.md 2.5 to 2.9 -/

theorem test_A2_add_wraps :
    (after (step (st 0x100#32 0x00221820#32 [(1#5, 0x7FFFFFFF#32), (2#5, 1#32)]))).reg 3#5 = 0x80000000#32 := by decide
theorem test_A4_add_register_zero :
    (after (step (st 0x100#32 0x00000820#32 [(0#5, 7#32)]))).reg 1#5 = 14#32 := by decide
theorem test_A6_sub :
    (after (step (st 0x100#32 0x00221822#32 [(1#5, 0#32), (2#5, 1#32)]))).reg 3#5 = 0xFFFFFFFF#32 := by decide
theorem test_A8_slt :
    (after (step (st 0x100#32 0x0022182A#32 [(1#5, 0xFFFFFFFF#32), (2#5, 1#32)]))).reg 3#5 = 1#32 := by decide
theorem test_A11_sltu :
    (after (step (st 0x100#32 0x0022182B#32 [(1#5, 1#32), (2#5, 0xFFFFFFFF#32)]))).reg 3#5 = 1#32 := by decide
theorem test_A12_and :
    (after (step (st 0x100#32 0x00221824#32 [(1#5, 0xF0F0F0F0#32), (2#5, 0xFF00FF00#32)]))).reg 3#5 = 0xF000F000#32 := by
  decide
theorem test_A13_or :
    (after (step (st 0x100#32 0x00221825#32 [(1#5, 0xF0F0F0F0#32), (2#5, 0xFF00FF00#32)]))).reg 3#5 = 0xFFF0FFF0#32 := by
  decide
theorem test_I3_addi :
    (after (step (st 0x100#32 0x20228000#32 []))).reg 2#5 = 0xFFFF8000#32 := by decide
theorem test_I5_addi_register_zero :
    (after (step (st 0x100#32 0x20000005#32 []))).reg 0#5 = 5#32 := by decide
theorem test_L4_lw_wraps :
    let s := st 0x100#32 0x8C220008#32 [(1#5, 0xFFFFFFFC#32)]
    (after (step (s.setMem (s.mem.setWord 1 0x11#32)))).reg 2#5 = 0x11#32 := by decide
theorem test_L3_lw_negative :
    (after (step (st 0x100#32 0x8C22FFFC#32 []))).cause = .invalidMemoryAddress := by decide
theorem test_L8_sw :
    (after (step (st 0x100#32 0xAC220004#32 [(1#5, 0x100#32), (2#5, 0x12345678#32)]))).mem.word 0x41 = 0x12345678#32 := by
  decide
theorem test_L9_sw_misaligned :
    let s := st 0x100#32 0xAC220002#32 [(1#5, 0x100#32)]
    after (step s) = s.halt .invalidMemoryAddress := by decide
theorem test_B1_beq_taken :
    (after (step (st 0x100#32 0x10220003#32 [(1#5, 7#32), (2#5, 7#32)]))).pc = 0x110#32 := by decide
theorem test_B2_beq_not_taken :
    (after (step (st 0x100#32 0x10220003#32 [(1#5, 7#32), (2#5, 8#32)]))).pc = 0x104#32 := by decide
theorem test_B5_beq_wraps : (after (step (st 0#32 0x10008000#32 []))).pc = 0xFFFE0004#32 := by decide
theorem test_J3_j : (after (step (st 0x100#32 0x08004000#32 []))).pc = 0x10000#32 := by decide
theorem test_H1_fetch_misaligned : (after (step (st 0x102#32 0#32 []))).cause = .invalidFetchAddress := by decide
theorem test_H2_opcode : (after (step (st 0x100#32 0x24000000#32 []))).cause = .unsupportedOpcode := by decide
theorem test_H3b_last_word : (after (step (st 0xFFFC#32 0x24000000#32 []))).cause = .unsupportedOpcode := by decide
theorem test_H5_zero_word : (after (step (st 0x100#32 0#32 []))).cause = .unsupportedFunction := by decide
theorem test_H6_halted : isNext (step (after (step (st 0x100#32 0#32 [])))) = false := by decide
theorem test_withFetchWord_runs :
    (after (step (State.reset.withFetchWord 32 0x20220007))).reg 2#5 = 7#32 := by decide
theorem test_write_unlisted_removes_cell : Memory.writeByte [(4, 1#8), (7, 2#8)] 4 0#8 = [(7, 2#8)] := by decide

/-! ## Witnesses: a state that meets each statement's hypotheses -/

/-- Running at 0x100 with `sw $2, 4($1)` there, base 0x100, value 0xDEADBEEF. -/
def swState : State := st 0x100#32 0xAC220004#32 [(1#5, 0x100#32), (2#5, 0xDEADBEEF#32)]

/-- Running at 0x100 with the all-zero word there. -/
def zeroState : State := st 0x100#32 0#32 []

/-- Running with a pc the fetch rejects. -/
def badPcState : State := st 0x102#32 0#32 []

/-- Running at 0x100 with `beq $0, $0, -1`. -/
def loopState : State := st 0x100#32 0x1000FFFF#32 []

theorem inv_of_checks (s : State) (h : s.mem.wf ∧ (∀ c ∈ s.mem, c.1 < 65536) ∧ s.pc.extractLsb' 0 2 = 0#2 ∧
    s.status = .running ∧ s.cause = .none) : s.Inv :=
  ⟨h.1, h.2.1, h.2.2.1, by simp [h.2.2.2.1, h.2.2.2.2]⟩

theorem swState_inv : swState.Inv := inv_of_checks _ (by decide)

/-- AddRule, SubRule, AndRule, OrRule, SltResult, SltuResult: a fetched R-format word, with bits 10..6 set. -/
theorem witness_RegisterRules : ∀ f ∈ [32#6, 34#6, 36#6, 37#6, 42#6, 43#6],
    (st 0x100#32 (0#6 ++ 1#5 ++ 2#5 ++ 0#5 ++ 31#5 ++ f) []).fetches (0#6 ++ 1#5 ++ 2#5 ++ 0#5 ++ 31#5 ++ f) := by
  unfold State.fetches; decide

/-- AddiRule, BeqResult: a fetched I-format word. -/
theorem witness_ImmediateRules : ∀ op ∈ [8#6, 4#6],
    (st 0x100#32 (op ++ 1#5 ++ 0#5 ++ 0x8000#16) []).fetches (op ++ 1#5 ++ 0#5 ++ 0x8000#16) := by
  unfold State.fetches; decide

/-- JResult: a fetched J-format word, at the last word of memory. -/
theorem witness_JResult : (st 0xFFFC#32 (2#6 ++ 0x3FFFFFF#26) []).fetches (2#6 ++ 0x3FFFFFF#26) := by
  unfold State.fetches; decide

/-- The fetch clause of every rule, and InvalidFetchHalts: misaligned, at the bound, and the last word that is legal. -/
theorem witness_fetchGuard :
    badPcState.status = .running ∧ legal hardware badPcState.pc = false ∧
    (st 0x10000#32 0#32 []).pc.toNat = hardware.memBytes ∧ legal hardware (st 0x10000#32 0#32 []).pc = false ∧
    (st 0xFFFC#32 0#32 []).pc.toNat = hardware.memBytes - 4 ∧ legal hardware (st 0xFFFC#32 0#32 []).pc = true := by
  decide

/-- LwResult, SwResult, LoadFrame, StoreFrame: the last legal effective address and the first one past it, fetched. -/
theorem witness_LoadStoreResults : ∀ op ∈ [35#6, 43#6],
    (st 0x100#32 (op ++ 1#5 ++ 2#5 ++ 0#16) [(1#5, 0xFFFC#32)]).fetches (op ++ 1#5 ++ 2#5 ++ 0#16) ∧
    legal hardware (0xFFFC#32 + (0#16).signExtend 32) = true ∧
    legal hardware (0x10000#32 + (0#16).signExtend 32) = false := by
  unfold State.fetches; decide

/-- RegisterResultFrame, ControlFrame: every one of these instructions answers a next state. -/
theorem witness_RegisterAndControlFrames : ∀ i ∈ [Instr.add 1#5 2#5 3#5, .sub 1#5 2#5 3#5, .and 1#5 2#5 3#5,
    .or 1#5 2#5 3#5, .slt 1#5 2#5 3#5, .sltu 1#5 2#5 3#5, .addi 1#5 2#5 4#16, .beq 1#5 2#5 3#16, .j 0x40#26],
    ∃ t, exec i swState = .next t := by
  intro i hi
  refine ⟨after (exec i swState), eq_next_after ?_⟩
  revert i
  decide

/-- LoadFrame, StoreFrame: with a legal address and with one that is not. -/
theorem witness_LoadStoreFrames : ∀ i ∈ [Instr.lw 1#5 2#5 4#16, .lw 1#5 2#5 1#16, .sw 1#5 2#5 4#16, .sw 1#5 2#5 1#16],
    ∃ t, exec i swState = .next t := by
  intro i hi
  refine ⟨after (exec i swState), eq_next_after ?_⟩
  revert i
  decide

/-- OneRegisterWrite, OnlyStoresWriteMemory: a step that stores, and one that halts. -/
theorem witness_OneRegisterWrite :
    (∃ t, step swState = .next t ∧ t.mem ≠ swState.mem ∧
      decode hardware (memRead swState.mem swState.pc) = .ok (.sw 1#5 2#5 4#16)) ∧
    ∃ t, step zeroState = .next t ∧ t.status = .halted :=
  ⟨⟨after (step swState), eq_next_after (by decide), by decide, by decide⟩,
    ⟨after (step zeroState), eq_next_after (by decide), by decide⟩⟩

/-- RegisterZeroIsOrdinary: a write of register 0 and a read of it after. -/
theorem witness_RegisterZeroIsOrdinary : ∃ t u, exec (.addi 1#5 0#5 5#16) swState = .next t ∧
    exec (.add 0#5 2#5 3#5) t = .next u :=
  ⟨after (exec (.addi 1#5 0#5 5#16) swState), after (exec (.add 0#5 2#5 3#5) (after (exec (.addi 1#5 0#5 5#16) swState))),
    eq_next_after (by decide), eq_next_after (by decide)⟩

/-- StoreReplacesOneWord, WordsDetermineMemory: a canonical memory inside the bound that lists
something, and the last legal address. -/
theorem witness_MemoryLaws :
    swState.mem.wf ∧ swState.mem ≠ [] ∧ swState.mem.within hardware.memBytes ∧ legal hardware 0xFFFC#32 = true := by
  unfold Memory.within; decide

/-- LoadReturnsLastStore, FetchSeesEarlierStore: a store that completes, and a state that fetches what it stored. -/
theorem witness_StoreThenRead : swState.Inv ∧ legal hardware (effectiveAddress swState 1#5 4#16) = true ∧
    (∃ t, exec (.sw 1#5 2#5 4#16) swState = .next t ∧ t.pc = effectiveAddress swState 1#5 4#16) :=
  ⟨swState_inv, by decide, after (exec (.sw 1#5 2#5 4#16) swState), eq_next_after (by decide), by decide⟩

/-- StoreToOwnWord: vector L11's form, a store whose effective address is its own pc. -/
theorem witness_StoreToOwnWord :
    (st 0x100#32 (encode (.sw 1#5 2#5 0#16)) [(1#5, 0x100#32), (2#5, 7#32)]).Inv ∧
    (st 0x100#32 (encode (.sw 1#5 2#5 0#16)) [(1#5, 0x100#32), (2#5, 7#32)]).fetches (encode (.sw 1#5 2#5 0#16)) ∧
    effectiveAddress (st 0x100#32 (encode (.sw 1#5 2#5 0#16)) [(1#5, 0x100#32), (2#5, 7#32)]) 1#5 0#16 = 0x100#32 :=
  ⟨inv_of_checks _ (by decide), by unfold State.fetches; decide, by decide⟩

/-- DecodeEncode, EncodeDecode, OpcodeTable, IgnoredBits: instructions that exist, a word of two spellings, and an opcode
that is not 0. -/
theorem witness_Encoding :
    Instr.wellFormed hardware (.sltu 1#5 2#5 3#5) = true ∧
    (partition 0x002218A0#32).op = 0#6 ∧ 0x002218A0#32 &&& 0xFFFFF83F#32 = 0x00221820#32 &&& 0xFFFFF83F#32 ∧
    (∃ row ∈ opcodeRows, 0x002218A0#32 &&& row.mask = row.value) ∧ (partition 0x20000020#32).op ≠ 0#6 := by
  decide

/-- StepRunsDecoded, WithFetchWordRuns: at reset, the next word can be placed and runs. -/
theorem witness_StepRunsDecoded :
    State.reset.mem.wf ∧ State.reset.status = .running ∧ legal hardware State.reset.pc = true ∧
    decodeTableWord 32 0x00221820 = some (.add 1#5 2#5 3#5) ∧
    (State.reset.withFetchWord 32 0x00221820).fetches 0x00221820#32 := by
  unfold State.fetches; decide

/-- StepFunctionOfPcRegsMem: two running states that differ in cause alone, and step. -/
theorem witness_StepFunctionOfPcRegsMem :
    (∃ t, step swState = .next t) ∧ ∃ t, step { swState with cause := .unsupportedOpcode } = .next t :=
  ⟨⟨_, eq_next_after (by decide)⟩, ⟨_, eq_next_after (by decide)⟩⟩

/-- RunningStepsHaltedDoesNot, HaltIsPrecise, HaltRecurs, HostOperations: a halted state a step reaches, and a
host operation it answers. -/
theorem witness_Halted : zeroState.status = .running ∧
    ∃ t, step zeroState = .next t ∧ t.status = .halted ∧ t.cause = .unsupportedFunction ∧
      hostOp .inspectPc t = .next (t, .value t.pc) :=
  ⟨by decide, after (step zeroState), eq_next_after (by decide), by decide, by decide, rfl⟩

/-- PcAdvance: running steps of a branch that is taken, one that is not, a jump, and a store. -/
theorem witness_PcAdvance : ∀ s ∈ [loopState, st 0x100#32 0x10220003#32 [(1#5, 7#32)], st 0x100#32 0x08000040#32 [], swState],
    ∃ t, step s = .next t ∧ t.status = .running := by
  intro s hs
  have h : ∀ s ∈ [loopState, st 0x100#32 0x10220003#32 [(1#5, 7#32)], st 0x100#32 0x08000040#32 [], swState],
      isNext (step s) = true ∧ (after (step s)).status = .running := by decide
  exact ⟨after (step s), eq_next_after (h s hs).1, (h s hs).2⟩

/-- SelfBranchLoops. -/
theorem witness_SelfBranchLoops : loopState.fetches (encode (.beq 0#5 0#5 0xFFFF#16)) := by
  unfold State.fetches; decide

/-- UnsupportedOpcodeHalts. -/
theorem witness_UnsupportedOpcodeHalts :
    (st 0x100#32 0xFC000020#32 []).fetches 0xFC000020#32 ∧
    (partition 0xFC000020#32).op.toNat ∉ [0, 2, 4, 8, 35, 43] := by
  unfold State.fetches; decide

/-- UnsupportedFunctionHalts: function 43 under HALT, function 33 and an opcode that is not 0 for this hardware, and the
all-zero word. -/
theorem witness_UnsupportedFunctionHalts :
    (st 0x100#32 0x0022182B#32 []).fetches 0x0022182B#32 ∧ (partition 0x0022182B#32).op = 0#6 ∧
    (partition 0x0022182B#32).funct.toNat ∉ [32, 34, 36, 37, 42] ∧
    (st 0x100#32 0x00221821#32 []).fetches 0x00221821#32 ∧ (partition 0x00221821#32).op = 0#6 ∧
    (partition 0x00221821#32).funct.toNat ∉ [32, 34, 36, 37, 42, 43] ∧
    swState.fetches 0xAC220004#32 ∧ (partition 0xAC220004#32).op ≠ 0#6 ∧ zeroState.fetches 0#32 := by
  unfold State.fetches; decide

/-- InvalidMemoryHalts: a load and a store whose effective address is not legal. -/
theorem witness_InvalidMemoryHalts :
    decode hardware (memRead (st 0x100#32 0x8C220000#32 [(1#5, 0x10000#32)]).mem 0x100#32) = .ok (.lw 1#5 2#5 0#16) ∧
    legal hardware ((st 0x100#32 0x8C220000#32 [(1#5, 0x10000#32)]).reg 1#5 + (0#16).signExtend 32) = false ∧
    (after (step (st 0x100#32 0x8C220000#32 [(1#5, 0x10000#32)]))).cause = .invalidMemoryAddress ∧
    (after (step (st 0x100#32 0xAC220002#32 [(1#5, 0x100#32)]))).cause = .invalidMemoryAddress := by
  decide

/-- UnreachableAluOperations: function 43 reaches SLTU. -/
theorem witness_UnreachableAluOperations : ∃ cv, controlVector 0#6 = some cv ∧
    aluDispatch hardware cv 43#6 = some .sltu :=
  ⟨_, rfl, rfl⟩

/-- JumpWins, ReadBeforeWrite: a control vector with every signal, at a legal result and at one that is not. -/
theorem witness_AllSignals : ∃ cv : ControlVector, cv.branch = true ∧ cv.jump = true ∧ cv.memRead = true ∧
    cv.memWrite = true ∧ legal hardware 4#32 = true ∧ legal hardware 5#32 = false :=
  ⟨⟨true, true, true, true, true, true, true, true, .add⟩, by decide⟩

/-- PcStaysAligned, StepKeepsInv. -/
theorem witness_StepKeepsInv : swState.Inv ∧ swState.pc.toNat % 4 = 0 ∧ (∃ t, step swState = .next t) ∧
    ∃ t, datapathStep hardware swState = .next t :=
  ⟨swState_inv, by decide, ⟨_, eq_next_after (by decide)⟩, ⟨_, eq_next_after (by decide)⟩⟩

/-- WrappedBranchIsIllegal: vector B5. -/
theorem witness_WrappedBranchIsIllegal : legal hardware (st 0#32 0x10008000#32 []).pc = true ∧
    ((st 0#32 0x10008000#32 []).pc.toNat : Int) + 4 + 4 * (0x8000#16).toInt < 0 ∧
    ∃ t, exec (.beq 0#5 0#5 0x8000#16) (st 0#32 0x10008000#32 []) = .next t :=
  ⟨by decide, by decide, _, eq_next_after (by decide)⟩

/-- JumpModesAgree: this hardware, and the largest memory the premise admits. -/
theorem witness_JumpModesAgree : hardware.wellFormed = true ∧ hardware.memBytes < 2 ^ 28 ∧
    Config.wellFormed { hardware with memBytes := 2 ^ 28 - 4 } = true := by decide

/-- Funct43ModeUnobserved, Funct43ByMode: a state that fetches no function 43, and one that does, with bits 10..6 set. -/
theorem witness_Funct43 :
    ¬ ((partition (memRead swState.mem swState.pc)).op = 0#6 ∧
      (partition (memRead swState.mem swState.pc)).funct = 43#6) ∧
    (st 0x100#32 (0#6 ++ 1#5 ++ 2#5 ++ 3#5 ++ 31#5 ++ 43#6) []).fetches
      (0#6 ++ 1#5 ++ 2#5 ++ 3#5 ++ 31#5 ++ 43#6) := by
  unfold State.fetches; decide

/-- LaunchValues: an aligned initial pc. -/
theorem witness_LaunchValues : (0x100#32).toNat % 4 = 0 := by decide

/-- HostOperations: Step answers continue, and halt with its cause. -/
theorem witness_HostOperations :
    stepReply (after (step swState)) = .continue ∧
    stepReply (after (step zeroState)) = .halt .unsupportedFunction := by decide

end Sys2Proof.Tests
end

/-!
SUPPORT. What an instruction that answers a next state did, and which registers it left alone (10_state.md R13).
-/

namespace Sys2Proof.Machine

variable {i : Instr} {r : RegIdx} {s t : State}

/-- The five ways an instruction answers a next state, each with the state it answers. -/
inductive ExecResult : Instr → State → State → Prop where
  /-- A register result or a completed load; which value it writes is left to the instruction's rule. -/
  | write {i : Instr} {s : State} (d : RegIdx) (v : Word) (hd : destReg i = some d) :
      ExecResult i s ((s.setReg d v).setPc s.seqPc)
  /-- A completed store. -/
  | store {s : State} (r1 r2 : RegIdx) (offset : Offset)
      (hl : legal hardware (effectiveAddress s r1 offset) = true) :
      ExecResult (.sw r1 r2 offset) s
        ((s.setMem (memWrite s.mem (effectiveAddress s r1 offset) (s.reg r2))).setPc s.seqPc)
  /-- A branch, taken or not. -/
  | branch {s : State} (r1 r2 : RegIdx) (offset : Offset) :
      ExecResult (.beq r1 r2 offset) s
        (s.setPc (if s.reg r1 = s.reg r2 then branchTarget s.seqPc offset else s.seqPc))
  /-- A jump. -/
  | jump {s : State} (target : Target) :
      ExecResult (.j target) s (s.setPc (jumpTarget hardware.jumpMode s.seqPc target))
  /-- A load or store whose effective address is not legal. -/
  | halt {i : Instr} {s : State} (r1 r2 : RegIdx) (offset : Offset)
      (hi : i = .lw r1 r2 offset ∨ i = .sw r1 r2 offset)
      (hl : legal hardware (effectiveAddress s r1 offset) = false) :
      ExecResult i s (s.halt .invalidMemoryAddress)

/-- A register-format instruction writes the ALU's result to r3 and moves on. -/
theorem registerOp_next {ctl : AluCtl} {r1 r2 r3 : RegIdx} (h : registerOp ctl r1 r2 r3 s = .next t) :
    t = (s.setReg r3 (aluResult ctl (s.reg r1) (s.reg r2))).setPc s.seqPc := by
  injection h with h
  exact h.symm

/-- Every next state an instruction answers is one of the five results. -/
theorem execResult_of_exec (h : exec i s = .next t) : ExecResult i s t := by
  cases i with
  | add | sub | and | or | slt | sltu => exact registerOp_next h ▸ .write _ _ rfl
  | addi r1 r2 offset =>
    injection h with h
    exact h ▸ .write _ _ rfl
  | lw r1 r2 offset =>
    obtain ⟨_, rfl⟩ | ⟨hl, rfl⟩ := loadWord_cases h
    · exact .write _ _ rfl
    · exact .halt r1 r2 offset (.inl rfl) hl
  | sw r1 r2 offset =>
    obtain ⟨hl, rfl⟩ | ⟨hl, rfl⟩ := storeWord_cases h
    · exact .store r1 r2 offset hl
    · exact .halt r1 r2 offset (.inr rfl) hl
  | beq r1 r2 offset =>
    simp only [exec, execBeq, aluResult_sub, zeroFlag_sub, beq_iff_eq] at h
    injection h with h
    exact h ▸ .branch r1 r2 offset
  | j target =>
    injection h with h
    exact h ▸ .jump target

/-- The register frame of every instruction: no register but its destination changes. -/
theorem exec_reg_of_ne_destReg (h : exec i s = .next t) (hr : destReg i ≠ some r) : t.reg r = s.reg r := by
  cases execResult_of_exec h with
  | write d v hd =>
    have hne : r ≠ d := fun e => hr (e ▸ hd)
    simp [State.reg_setReg_ne, hne]
  | store | branch | jump | halt => simp

/-- A result that writes a register leaves status alone, so an instruction that halts wrote none. -/
theorem exec_regs_of_halted (hs : s.status = .running) (h : exec i s = .next t) (ht : t.status = .halted) :
    t.regs = s.regs := by
  cases execResult_of_exec h with
  | write => simp [hs] at ht
  | store | branch | jump | halt => simp

/-- Settles O16: a halt at fetch or decode changes no register, and an instruction has the two frames above. -/
theorem oneRegisterWrite : Obligations.OneRegisterWrite := by
  intro s t h
  obtain ⟨hs, ⟨-, rfl⟩ | ⟨-, ⟨e, -, rfl⟩ | ⟨i, hi, hexec⟩⟩⟩ := step_cases h
  · simp
  · simp
  · refine ⟨exec_regs_of_halted hs hexec, fun i' hi' r hr => ?_⟩
    obtain rfl : i' = i := by simpa [hi] using hi'.symm
    exact exec_reg_of_ne_destReg hexec hr

end Sys2Proof.Machine

/-!
SUPPORT. What every word of memory is after a store (20_memory.md R32).
-/

namespace Sys2Proof.Machine

variable {m : Memory}

/-- The one law of a store, by words. It needs no legal address: `memWrite` takes the word index of any address. -/
theorem word_memWrite (h : m.wf) (a v : Word) (k : Nat) :
    (memWrite m a v).word k = if k = wordIndex a then v else m.word k := by
  split
  · next hk => exact hk ▸ Memory.word_setWord_same m k v h
  · next hk => exact Memory.word_setWord_ne m (wordIndex a) k v h hk

/-- Settles O20: `word_memWrite` at the index of the address, and at every other. -/
theorem storeReplacesOneWord : Obligations.StoreReplacesOneWord := by
  intro _ m a v hm _
  exact ⟨(word_memWrite hm a v _).trans (if_pos rfl), fun k hk => (word_memWrite hm a v k).trans (if_neg hk)⟩

end Sys2Proof.Machine

/-!
SUPPORT. The fields of a word as integers (30_encoding.md R42), and the bits of a word that decide what it decodes to
(R44).
-/

namespace Sys2Proof

variable {c : Config} {f g : Fields} {w w' mask : Word}

/-- The field of `len` bits from bit `start` up, as an integer. -/
theorem toNat_extractLsb' (w : Word) (start len : Nat) :
    (w.extractLsb' start len).toNat = w.toNat / 2 ^ start % 2 ^ len := by
  rw [BitVec.extractLsb'_toNat, Nat.shiftRight_eq_div_pow]

/-- The opcode is the top six bits, so nothing above it is to be cut off. -/
theorem toNat_partition_op (w : Word) : (partition w).op.toNat = w.toNat / 2 ^ 26 := by
  have hlt : w.toNat / 2 ^ 26 < 2 ^ 6 := by omega
  exact (toNat_extractLsb' w 26 6).trans (Nat.mod_eq_of_lt hlt)

/-- A field that starts at bit 0 is a remainder. -/
theorem toNat_extractLsb'_zero (w : Word) (len : Nat) : (w.extractLsb' 0 len).toNat = w.toNat % 2 ^ len := by
  rw [toNat_extractLsb', pow_zero, Nat.div_one]

/-- Settles O25: each field is an `extractLsb'`, and three of them start at bit 0. -/
theorem partitionFields : Obligations.PartitionFields := fun w =>
  ⟨toNat_partition_op w, toNat_extractLsb' w 21 5, toNat_extractLsb' w 16 5, toNat_extractLsb' w 11 5,
    toNat_extractLsb'_zero w 6, toNat_extractLsb'_zero w 16, toNat_extractLsb'_zero w 26⟩

/-- Words that agree under a mask agree in every field the mask covers. -/
theorem extractLsb'_eq_of_and_eq {start len : Nat} (hmask : mask.extractLsb' start len = BitVec.allOnes len)
    (h : w &&& mask = w' &&& mask) : w.extractLsb' start len = w'.extractLsb' start len := by
  simpa [BitVec.extractLsb'_and, hmask] using congrArg (BitVec.extractLsb' start len) h

theorem decodeFields_of_op_eq_zero (h : f.op = 0#6) : decodeFields c f = decodeFunct c f := if_pos h

/-- The function map reads r1, r2, r3 and funct, and no other field. -/
theorem decodeFunct_congr (h1 : f.r1 = g.r1) (h2 : f.r2 = g.r2) (h3 : f.r3 = g.r3) (hf : f.funct = g.funct) :
    decodeFunct c f = decodeFunct c g := by
  simp only [decodeFunct, decodeFunct43, h1, h2, h3, hf]

/-- Bits 10..6 of an R-format word are not read: the mask clears them and covers every field the decoder reads. -/
theorem decode_eq_of_and_eq (hop : (partition w).op = 0#6) (h : w &&& 0xFFFFF83F#32 = w' &&& 0xFFFFF83F#32) :
    decode c w = decode c w' := by
  have hop' : (partition w').op = 0#6 := (extractLsb'_eq_of_and_eq (by decide) h).symm.trans hop
  calc decode c w
    _ = decodeFunct c (partition w) := decodeFields_of_op_eq_zero hop
    _ = decodeFunct c (partition w') := decodeFunct_congr
        (extractLsb'_eq_of_and_eq (by decide) h) (extractLsb'_eq_of_and_eq (by decide) h)
        (extractLsb'_eq_of_and_eq (by decide) h) (extractLsb'_eq_of_and_eq (by decide) h)
    _ = decode c w' := (decodeFields_of_op_eq_zero hop').symm

/-- Outside opcode 0 the decoder accepts five opcodes, whatever the other fields hold (30_encoding.md R48, R51). -/
theorem decodeFields_ok_iff (h : f.op ≠ 0#6) :
    (∃ i, decodeFields c f = .ok i) ↔ f.op ∈ [2#6, 4#6, 8#6, 35#6, 43#6] := by
  unfold decodeFields
  rw [if_neg h]
  split_ifs <;> simp [*]

end Sys2Proof

namespace Sys2Proof.Machine

/-- The opcodes that have a control vector (40_datapath.md R65). -/
theorem controlVector_ne_none_iff {op : BitVec 6} :
    controlVector op ≠ none ↔ op ∈ [0#6, 2#6, 4#6, 8#6, 35#6, 43#6] := by
  unfold controlVector
  split_ifs <;> simp [*]

/-- Outside opcode 0 a word is an instruction exactly when its opcode has a control vector. -/
theorem decode_ok_iff_controlVector {c : Config} {w : Word} (h : (partition w).op ≠ 0#6) :
    (∃ i, decode c w = .ok i) ↔ controlVector (partition w).op ≠ none := by
  rw [controlVector_ne_none_iff, List.mem_cons, or_iff_right h]
  exact decodeFields_ok_iff h

/-- A jump reads pc alone and writes pc alone, so other registers pass through it. -/
theorem exec_j_withRegs {target : Target} {s t : State} (regs' : Vector Word 32)
    (h : exec (.j target) s = .next t) :
    exec (.j target) { s with regs := regs' } = .next { t with regs := regs' } := by
  injection h with h
  exact h ▸ rfl

/-- Settles O29: bits 10..6 by the mask, the opcode by the two maps, and `j` by `exec_j_withRegs`. -/
theorem ignoredBits : Obligations.IgnoredBits :=
  ⟨fun _ _ _ => decode_eq_of_and_eq, fun _ _ => decode_ok_iff_controlVector,
    fun _ _ _ regs' => exec_j_withRegs regs'⟩

end Sys2Proof.Machine

/-!
SUPPORT. The control vectors by opcode, the sign extension as two halves, and the priority of `Jump` in the next PC
(40_datapath.md R65, R67, R84).
-/

namespace Sys2Proof.Machine

/-! ## Control vectors -/

/-- Every opcode outside the list has no control vector; the list is `controlVector_ne_none_iff`'s, as integers. -/
theorem controlVector_eq_none_iff {op : BitVec 6} :
    controlVector op = none ↔ op.toNat ∉ [0, 2, 4, 8, 35, 43] := by
  rw [← not_iff_not, ← ne_eq, controlVector_ne_none_iff, not_not]
  simp [← BitVec.toNat_inj]

/-- Each row sets at most one of the memory signals and at most one of the PC signals. -/
theorem controlVector_exclusive {op : BitVec 6} {cv : ControlVector} (h : controlVector op = some cv) :
    ¬ (cv.memRead = true ∧ cv.memWrite = true) ∧ ¬ (cv.branch = true ∧ cv.jump = true) := by
  unfold controlVector at h
  split_ifs at h
  all_goals
    obtain rfl := Option.some.inj h
    simp [ControlVector.idle]

/-- Settles O44: the rows are `controlVector`'s own, and the two lemmas above say the rest. -/
theorem controlVectors : Obligations.ControlVectors :=
  ⟨rfl, rfl, rfl, rfl, rfl, rfl, fun _ => controlVector_eq_none_iff, fun _ _ => controlVector_exclusive⟩

/-! ## Sign extension -/

/-- The extended offset is sixteen copies of bit 15 above the offset. -/
theorem sext32_eq_append (offset : Offset) :
    sext32 offset = (if offset.getLsbD 15 then 0xFFFF#16 else 0#16) ++ offset := by
  rw [sext32, BitVec.signExtend_eq_append_of_le (by decide), BitVec.msb_eq_getLsbD_last]
  rfl

/-- Settles O47: the halves are those of `sext32_eq_append`, and a wider sign extension keeps the signed value. -/
theorem signExtension : Obligations.SignExtension := by
  intro offset
  refine ⟨?low, ?high, ?value⟩
  case low => rw [sext32_eq_append, BitVec.extractLsb'_append_eq_right]
  case high => rw [sext32_eq_append, BitVec.extractLsb'_append_eq_left]
  case value => exact BitVec.toInt_signExtend_of_le (by decide)

/-! ## The next PC -/

variable {c : Config} {cv : ControlVector} {f : Fields} {zero : Bool} {pc : Word}

/-- `Jump` is decided last, so whatever `Branch` and `zero` are, the next PC is the jump target. -/
theorem nextPc_of_jump (h : cv.jump = true) :
    nextPc c cv f zero pc = jumpTarget c.jumpMode (pc + 4#32) f.target := if_pos h

/-- Settles O49: `nextPc_of_jump` needs neither `Branch` nor `zero`, and no row sets `Branch` and `Jump`. -/
theorem jumpWins : Obligations.JumpWins :=
  ⟨fun _ _ _ _ _ _ _ hjump => nextPc_of_jump hjump, fun _ _ h => (controlVector_exclusive h).2⟩

end Sys2Proof.Machine

/-!
SUPPORT. What a step does with the word it fetches and with a pc that is not legal, and the rules of the
register-format instructions (41_register_format.md R87 to R93).
-/

namespace Sys2Proof

/-- An R-format word is read by the function map, whatever stands in bits 10..6. -/
theorem decode_R (c : Config) (r1 r2 r3 : RegIdx) (ignored : BitVec 5) (funct : BitVec 6) :
    decode c (0#6 ++ r1 ++ r2 ++ r3 ++ ignored ++ funct) =
      decodeFunct c ⟨0#6, r1, r2, r3, funct, r3 ++ ignored ++ funct, r1 ++ r2 ++ r3 ++ ignored ++ funct⟩ := by
  rw [decode, partition_R]
  exact decodeFields_of_op_eq_zero rfl

end Sys2Proof

namespace Sys2Proof.Machine

/-! ## One step -/

section

variable {s : State} {w : Word} {i : Instr}

/-- A step whose fetched word is an instruction has that instruction's meaning. -/
theorem step_of_fetches (h : s.fetches w) (hw : decode hardware w = .ok i) : step s = exec i s := by
  obtain ⟨hs, hl, rfl⟩ := h
  simp [step, fetch, hs, hl, hw]

/-- The fetch check comes before everything else, so the guard every rule repeats holds of every state. -/
theorem fetchGuard_holds (s : State) : s.fetchGuard := by
  intro hs hl
  simp [State.haltsWith, State.halt, step, fetch, hs, hl]

end

/-! ## Register format -/

section

variable {r1 r2 r3 : RegIdx} {funct : BitVec 6} {i : Instr} {s t : State}

/-- The state a register-format instruction answers: x[r3] and pc, and no other field. -/
theorem registerOp_eq (ctl : AluCtl) (r1 r2 r3 : RegIdx) (s : State) :
    registerOp ctl r1 r2 r3 s =
      .next { s with
        regs := s.regs.set r3.toNat (aluResult ctl (s.reg r1) (s.reg r2)) r3.isLt, pc := s.pc + 4#32 } := rfl

/-- What R87 says of every register-format instruction: when the function map gives `i` for a function, a step that
fetches a word of that function answers what `exec i` answers. -/
theorem register_rule (hexec : exec i s = .next t)
    (hfunct : ∀ offset target, decodeFunct hardware ⟨0#6, r1, r2, r3, funct, offset, target⟩ = .ok i) :
    exec i s = .next t ∧
    (∀ ignored : BitVec 5, s.fetches (0#6 ++ r1 ++ r2 ++ r3 ++ ignored ++ funct) → step s = .next t) ∧
    s.fetchGuard := by
  refine ⟨hexec, fun ignored h => ?_, fetchGuard_holds s⟩
  have hdecode := (decode_R hardware r1 r2 r3 ignored funct).trans (hfunct _ _)
  exact (step_of_fetches h hdecode).trans hexec

end

/-- Settles O1: `register_rule` for function 32, which is the ALU's sum. -/
theorem addRule : Obligations.AddRule := fun r1 r2 r3 s =>
  register_rule (registerOp_eq .add r1 r2 r3 s) fun _ _ => rfl

/-- Settles O2: `register_rule` for function 34, which is the ALU's difference. -/
theorem subRule : Obligations.SubRule := fun r1 r2 r3 s =>
  register_rule (registerOp_eq .sub r1 r2 r3 s) fun _ _ => rfl

/-- Settles O3: `register_rule` for function 36, which is the ALU's bitwise AND. -/
theorem andRule : Obligations.AndRule := fun r1 r2 r3 s =>
  register_rule (registerOp_eq .and r1 r2 r3 s) fun _ _ => rfl

/-- Settles O4: `register_rule` for function 37, which is the ALU's bitwise OR. -/
theorem orRule : Obligations.OrRule := fun r1 r2 r3 s =>
  register_rule (registerOp_eq .or r1 r2 r3 s) fun _ _ => rfl

end Sys2Proof.Machine

/-!
SUPPORT. What the decoder and a step do with an I-format word (30_encoding.md R43), and the rule of `addi`
(42_immediate.md R94).
-/

namespace Sys2Proof

/-- An I-format word is read by its opcode, registers and offset when the opcode map gives one instruction for them
whatever the other three fields hold. -/
theorem decode_I {c : Config} {op : BitVec 6} {r1 r2 : RegIdx} {offset : Offset} {i : Instr}
    (hmap : ∀ r3 funct target, decodeFields c ⟨op, r1, r2, r3, funct, offset, target⟩ = .ok i) :
    decode c (op ++ r1 ++ r2 ++ offset) = .ok i := by
  obtain ⟨hop, h1, h2, hoffset⟩ := partition_I op r1 r2 offset
  have hfields : ∀ f : Fields, f.op = op → f.r1 = r1 → f.r2 = r2 → f.offset = offset →
      decodeFields c f = .ok i := by
    rintro ⟨⟩ rfl rfl rfl rfl
    exact hmap _ _ _
  exact hfields _ hop h1 h2 hoffset

end Sys2Proof

namespace Sys2Proof.Machine

/-- A step that fetches an I-format word has the meaning of the instruction the opcode map gives for it. -/
theorem step_of_fetches_I {op : BitVec 6} {r1 r2 : RegIdx} {offset : Offset} {i : Instr} {s : State}
    (h : s.fetches (op ++ r1 ++ r2 ++ offset))
    (hmap : ∀ r3 funct target, decodeFields hardware ⟨op, r1, r2, r3, funct, offset, target⟩ = .ok i) :
    step s = exec i s :=
  step_of_fetches h (decode_I hmap)

/-- The state `addi` answers: x[r2] and pc, and no other field. -/
theorem exec_addi (r1 r2 : RegIdx) (offset : Offset) (s : State) :
    exec (.addi r1 r2 offset) s =
      .next { s with
        regs := s.regs.set r2.toNat (s.reg r1 + offset.signExtend 32) r2.isLt, pc := s.pc + 4#32 } := rfl

/-- Settles O7: opcode 8 is `addi` for every r3, funct and target, so the step answers what `exec_addi` says. -/
theorem addiRule : Obligations.AddiRule := fun r1 r2 offset s =>
  ⟨exec_addi r1 r2 offset s,
    fun h => (step_of_fetches_I h fun _ _ _ => rfl).trans (exec_addi r1 r2 offset s),
    fetchGuard_holds s⟩

end Sys2Proof.Machine

/-!
SUPPORT. The words that are no instruction (30_encoding.md R51, R52): the decoder answers an error exactly where the
datapath's two tables (40_datapath.md R65, R74) have no row, and the step halts with that error's cause.
-/

namespace Sys2Proof.Machine

/-! ## The two tables and the decoder -/

section

variable {c : Config} {f : Fields} {w : Word} {e : DecodeError}

/-- An opcode without a control vector is one the opcode map does not list. -/
theorem decodeFields_of_controlVector_eq_none (h : controlVector f.op = none) :
    decodeFields c f = .error (.unsupportedOpcode f.op) := by
  have hop : f.op ∉ [0#6, 2#6, 4#6, 8#6, 35#6, 43#6] := mt controlVector_ne_none_iff.2 (not_not_intro h)
  simp only [List.mem_cons, List.not_mem_nil, or_false, not_or] at hop
  simp [decodeFields, hop]

/-- The functions that select no ALU operation: every one outside the table, and 43 under HALT. -/
theorem functTable_eq_none_iff {funct : BitVec 6} :
    functTable c funct = none ↔
      funct.toNat ∉ [32, 34, 36, 37, 42] ∧ (funct.toNat = 43 → c.funct43Mode = .halt) := by
  have h43 : funct43Ctl c.funct43Mode = none ↔ c.funct43Mode = .halt := by
    cases c.funct43Mode <;> simp [funct43Ctl]
  unfold functTable
  split_ifs <;> simp_all [← BitVec.toNat_inj]

/-- A function that selects no ALU operation is one the function map does not list (notes/assumptions/14.md). -/
theorem decodeFunct_of_functTable_eq_none (h : functTable c f.funct = none) :
    decodeFunct c f = .error (.unsupportedFunction f.funct) := by
  have h43 : funct43Ctl c.funct43Mode = none →
      decodeFunct43 c.funct43Mode f = .error (.unsupportedFunction f.funct) := by
    cases c.funct43Mode <;> simp [funct43Ctl, decodeFunct43]
  unfold functTable at h
  unfold decodeFunct
  split_ifs at h ⊢
  · exact h43 h
  · rfl

/-- Outside opcode 0 the decoder has one error, the opcode's: the function is not read. -/
theorem decode_error_of_op_ne_zero (hop : (partition w).op ≠ 0#6) (h : decode c w = .error e) :
    e = .unsupportedOpcode (partition w).op := by
  have hnone : controlVector (partition w).op = none := by
    by_contra hsome
    obtain ⟨i, hi⟩ := (decode_ok_iff_controlVector hop).2 hsome
    cases h.symm.trans hi
  exact (Except.error.inj ((decodeFields_of_controlVector_eq_none hnone).symm.trans h)).symm

end

/-! ## The halts -/

section

variable {c : Config} {i : Instr} {s t : State} {w : Word} {e : DecodeError}

/-- A step whose fetched word is no instruction halts with the cause of the decoder's error. -/
theorem haltsWith_of_decode_error (h : s.fetches w) (hw : decode hardware w = .error e) : s.haltsWith e.cause := by
  obtain ⟨hs, hl, rfl⟩ := h
  simp [State.haltsWith, State.halt, step, fetch, hs, hl, hw]

/-- An R-format word whose function selects no ALU operation halts this hardware's step. -/
theorem haltsWith_of_functTable_eq_none (h : s.fetches w) (hop : (partition w).op = 0#6)
    (hfunct : functTable hardware (partition w).funct = none) : s.haltsWith .unsupportedFunction :=
  haltsWith_of_decode_error h ((decodeFields_of_op_eq_zero hop).trans (decodeFunct_of_functTable_eq_none hfunct))

/-- An R-format word whose function selects no ALU operation halts the datapath at ALU dispatch (40_datapath.md R73). -/
theorem datapathStep_of_functTable_eq_none (hs : s.status = .running) (hl : legal c s.pc = true)
    (hop : (partition (memRead s.mem s.pc)).op = 0#6)
    (hfunct : functTable c (partition (memRead s.mem s.pc)).funct = none) :
    datapathStep c s = .next (s.halt .unsupportedFunction) := by
  simp [datapathStep, fetch, hs, hl, hop, controlVector, datapath, aluDispatch, hfunct]

/-- An instruction that halts a running core is a load or store that met an illegal address. -/
theorem exec_cause_of_halted (hs : s.status = .running) (h : exec i s = .next t) (ht : t.status = .halted) :
    t.cause = .invalidMemoryAddress := by
  cases execResult_of_exec h with
  | write | store | branch | jump => simp [hs] at ht
  | halt => rfl

/-- UnsupportedFunction is never raised for an opcode that is not 0 (60_exceptions.md R104): a word that is no
instruction halts with UnsupportedOpcode, and an instruction with InvalidMemoryAddress alone. -/
theorem not_haltsWith_unsupportedFunction (h : s.fetches w) (hop : (partition w).op ≠ 0#6) :
    ¬ s.haltsWith .unsupportedFunction := by
  obtain ⟨hs, hl, rfl⟩ := h
  intro hstep
  obtain ⟨-, ⟨hillegal, -⟩ | ⟨-, ⟨e, he, ht⟩ | ⟨i, -, hexec⟩⟩⟩ := step_cases hstep
  · simp [hl] at hillegal
  · obtain rfl := decode_error_of_op_ne_zero hop he
    exact HaltCause.noConfusion (congrArg State.cause ht)
  · exact HaltCause.noConfusion (exec_cause_of_halted hs hexec rfl)

end

/-- Settles O38: the listed opcodes are those with a control vector, and the decoder's error for another one is the
cause of the halt. -/
theorem unsupportedOpcodeHalts : Obligations.UnsupportedOpcodeHalts := fun _ _ h hop =>
  haltsWith_of_decode_error h (decodeFields_of_controlVector_eq_none (controlVector_eq_none_iff.2 hop))

/-- Settles O39: the datapath's clause and this hardware's clause from one table, `functTable`; the all-zero word is an
instance of the latter. -/
theorem unsupportedFunctionHalts : Obligations.UnsupportedFunctionHalts := by
  refine ⟨?everyMode, ?hardware, fun _ _ => not_haltsWith_unsupportedFunction, ?zeroWord⟩
  case everyMode =>
    intro c s hs hl hop hfunct h43
    exact datapathStep_of_functTable_eq_none hs hl hop (functTable_eq_none_iff.2 ⟨hfunct, h43⟩)
  case hardware =>
    intro s w h hop hfunct
    refine haltsWith_of_functTable_eq_none h hop (functTable_eq_none_iff.2 ⟨?_, ?_⟩)
    · exact fun hmem => hfunct (List.mem_append_left [43] hmem)
    · exact fun h43 => absurd (by simp [h43]) hfunct
  case zeroWord =>
    exact fun s h => haltsWith_of_functTable_eq_none h (by decide) (by decide)

end Sys2Proof.Machine

/-!
SUPPORT. A step neither reads the cause nor, unless it halts, writes it (60_exceptions.md R111).
-/

namespace Sys2Proof.Machine

/-- The state with a cause put in place of the one a running core carries; a halted core keeps its own. -/
def State.withRunningCause (k : HaltCause) (t : State) : State :=
  { t with cause := if t.status = .running then k else t.cause }

section

variable {c : Config} {ea v : Word} {r2 : RegIdx} {i : Instr} {s t : State} {k : HaltCause}

theorem State.withRunningCause_of_running (h : t.status = .running) :
    t.withRunningCause k = { t with cause := k } := by
  simp [State.withRunningCause, h]

theorem State.withRunningCause_of_halted (h : t.status = .halted) : t.withRunningCause k = t := by
  rw [State.withRunningCause, if_neg (by simp [h])]

theorem loadWord_of_legal (h : legal c ea = true) :
    loadWord c ea r2 s = .next ((s.setReg r2 (memRead s.mem ea)).setPc s.seqPc) := if_pos h

theorem loadWord_of_illegal (h : legal c ea = false) :
    loadWord c ea r2 s = .next (s.halt .invalidMemoryAddress) := by
  simp [loadWord, h]

theorem storeWord_of_legal (h : legal c ea = true) :
    storeWord c ea v s = .next ((s.setMem (memWrite s.mem ea v)).setPc s.seqPc) := if_pos h

theorem storeWord_of_illegal (h : legal c ea = false) :
    storeWord c ea v s = .next (s.halt .invalidMemoryAddress) := by
  simp [storeWord, h]

/-- An instruction run under another cause answers the same state under that cause, or the same halt. -/
theorem exec_withRunningCause (hs : s.status = .running) (h : exec i s = .next t) :
    exec i { s with cause := k } = .next (t.withRunningCause k) := by
  cases i with
  | add | sub | and | or | slt | sltu | addi | beq | j =>
    injection h with h
    rw [State.withRunningCause_of_running (h ▸ hs)]
    exact h ▸ rfl
  | lw r1 r2 offset =>
    obtain ⟨hl, rfl⟩ | ⟨hl, rfl⟩ := loadWord_cases h
    · rw [State.withRunningCause_of_running (by simpa using hs)]
      exact loadWord_of_legal (s := { s with cause := k }) hl
    · exact loadWord_of_illegal (s := { s with cause := k }) hl
  | sw r1 r2 offset =>
    obtain ⟨hl, rfl⟩ | ⟨hl, rfl⟩ := storeWord_cases h
    · rw [State.withRunningCause_of_running (by simpa using hs)]
      exact storeWord_of_legal (s := { s with cause := k }) hl
    · exact storeWord_of_illegal (s := { s with cause := k }) hl

/-- A step under another cause does the same: the halts at fetch and decode write their own, and an instruction passes
it on. -/
theorem step_withRunningCause (h : step s = .next t) :
    step { s with cause := k } = .next (t.withRunningCause k) := by
  obtain ⟨hs, ⟨hl, rfl⟩ | ⟨hl, ⟨e, he, rfl⟩ | ⟨i, hi, hexec⟩⟩⟩ := step_cases h
  · exact fetchGuard_holds { s with cause := k } hs hl
  · exact haltsWith_of_decode_error (s := { s with cause := k }) ⟨hs, hl, rfl⟩ he
  · exact (step_of_fetches (s := { s with cause := k }) ⟨hs, hl, rfl⟩ hi).trans (exec_withRunningCause hs hexec)

end

/-- Settles O34: the second state is the first under another cause, so `step_withRunningCause` gives its step. -/
theorem stepFunctionOfPcRegsMem : Obligations.StepFunctionOfPcRegsMem := by
  rintro s ⟨_, _, _, _, k⟩ t t' hs rfl rfl rfl rfl h h'
  have hstep : step { s with cause := k } = .next t' := by rwa [hs]
  obtain rfl := Host.Outcome.next.inj ((step_withRunningCause h).symm.trans hstep)
  exact ⟨rfl, rfl, rfl, rfl, fun ht => by rw [State.withRunningCause_of_halted ht]⟩

end Sys2Proof.Machine

/-!
SUPPORT. The encoder and the decoder against each other (30_encoding.md R55), and the decoder against the opcode table's
masks and matches (R54).
-/

namespace Sys2Proof

variable {c : Config} {f g : Fields} {w : Word} {i : Instr} {row : OpcodeRow}

/-! ## Decoding what was encoded -/

theorem decode_encodeJ (c : Config) (target : Target) : decode c (encodeJ target) = .ok (.j target) := by
  obtain ⟨hop, htarget⟩ := partition_J target
  simp [decode, decodeFields, hop, htarget]

/-- Settles O26: the layouts give the fields back, so the maps are evaluated at the opcode and function of each
instruction; `sltu` alone asks for the mode. -/
theorem decodeEncode : Obligations.DecodeEncode := by
  intro c i hi
  cases i with
  | add r1 r2 r3 | sub r1 r2 r3 | and r1 r2 r3 | or r1 r2 r3 | slt r1 r2 r3 => exact decode_R c r1 r2 r3 0#5 _
  | sltu r1 r2 r3 =>
    have hmode : c.funct43Mode = .sltu := beq_iff_eq.1 hi
    have h43 (f : Fields) : decodeFunct43 c.funct43Mode f = .ok (.sltu f.r1 f.r2 f.r3) := by rw [hmode]; rfl
    exact (decode_R c r1 r2 r3 0#5 43#6).trans (h43 _)
  | addi | lw | sw | beq => exact decode_I fun _ _ _ => rfl
  | j target => exact decode_encodeJ c target

/-! ## A word put together from its fields -/

/-- Two adjacent fields are one field. -/
theorem field_append (w : Word) (start len len' : Nat) :
    w.extractLsb' (start + len) len' ++ w.extractLsb' start len = w.extractLsb' start (len' + len) :=
  BitVec.extractLsb'_append_extractLsb'_eq_extractLsb' rfl

/-- A mask of ones around zeros clears what stands between the two ends. -/
theorem append_and_mask {high middle low : Nat} (hi : BitVec high) (mid : BitVec middle) (lo : BitVec low) :
    (hi ++ mid ++ lo) &&& (BitVec.allOnes high ++ 0#middle ++ BitVec.allOnes low) = hi ++ 0#middle ++ lo := by
  simp only [BitVec.and_append, BitVec.and_allOnes, BitVec.and_zero]

theorem encodeI_partition (w : Word) :
    encodeI (partition w).op (partition w).r1 (partition w).r2 (partition w).offset = w := by
  have hr1 := field_append w 21 5 6
  have hr2 := field_append w 16 5 11
  have hoffset := field_append w 0 16 16
  simp only [partition, encodeI]
  rw [hr1, hr2, hoffset, BitVec.extractLsb'_eq_self]

theorem encodeJ_partition (h : (partition w).op = 2#6) : encodeJ (partition w).target = w := by
  rw [encodeJ, ← h]
  exact (field_append w 0 26 6).trans BitVec.extractLsb'_eq_self

/-- The R-format layout of a word's own fields is the word without bits 10..6. -/
theorem encodeR_partition (h : (partition w).op = 0#6) :
    encodeR (partition w).r1 (partition w).r2 (partition w).r3 (partition w).funct = w &&& 0xFFFFF83F#32 := by
  have hr1 := field_append w 21 5 6
  have hr2 := field_append w 16 5 11
  have hr3 := field_append w 11 5 16
  have hignored := field_append w 6 5 21
  have hfunct := (field_append w 0 6 26).trans BitVec.extractLsb'_eq_self
  rw [encodeR, ← h, show 0xFFFFF83F#32 = BitVec.allOnes 21 ++ 0#5 ++ BitVec.allOnes 6 by decide]
  conv_rhs => rw [← hfunct, ← hignored]
  simp only [partition]
  rw [hr1, hr2, hr3]
  exact (append_and_mask _ _ _).symm

/-! ## Encoding what was decoded -/

/-- What the function map gives is written back in the R-format layout of the same fields. -/
theorem encode_of_decodeFunct (h : decodeFunct Machine.hardware f = .ok i) :
    encode i = encodeR f.r1 f.r2 f.r3 f.funct := by
  unfold decodeFunct at h
  split_ifs at h with hf hf hf hf hf hf
  all_goals
    obtain rfl := Except.ok.inj h
    rw [hf]
    rfl

/-- What the opcode map gives outside opcode 0 is written back in one of the other two layouts. -/
theorem encode_of_decodeFields (hop : f.op ≠ 0#6) (h : decodeFields c f = .ok i) :
    encode i = encodeI f.op f.r1 f.r2 f.offset ∨ f.op = 2#6 ∧ encode i = encodeJ f.target := by
  unfold decodeFields at h
  rw [if_neg hop] at h
  split_ifs at h with hf hf hf hf hf
  all_goals obtain rfl := Except.ok.inj h
  · exact .inr ⟨hf, rfl⟩
  all_goals
    rw [hf]
    exact .inl rfl

/-- Settles O27: each layout of a word's own fields is the word, bits 10..6 of the R-format apart. -/
theorem encodeDecode : Obligations.EncodeDecode := by
  intro w i h
  split
  · next hop =>
    have hfunct := (decodeFields_of_op_eq_zero hop).symm.trans h
    exact (encode_of_decodeFunct hfunct).trans (encodeR_partition hop)
  · next hop =>
    obtain hI | ⟨htwo, hJ⟩ := encode_of_decodeFields hop h
    · exact hI.trans (encodeI_partition w)
    · exact hJ.trans (encodeJ_partition htwo)

/-! ## The opcode table -/

/-- The mask of an I-format or J-format row keeps the opcode. -/
theorem and_opcodeMask (w : Word) : w &&& 0xFC000000#32 = (partition w).op ++ 0#26 := by
  have hw := (field_append w 0 26 6).trans BitVec.extractLsb'_eq_self
  conv_lhs => rw [← hw, show 0xFC000000#32 = BitVec.allOnes 6 ++ 0#26 by decide]
  exact BitVec.and_append.trans (by rw [BitVec.and_allOnes, BitVec.and_zero]; rfl)

/-- The mask of an R-format row keeps the opcode and the function. -/
theorem and_functMask (w : Word) : w &&& 0xFC00003F#32 = (partition w).op ++ 0#20 ++ (partition w).funct := by
  have hmiddle := field_append w 6 20 6
  have hw := (field_append w 0 6 26).trans BitVec.extractLsb'_eq_self
  conv_lhs => rw [← hw, ← hmiddle, show 0xFC00003F#32 = BitVec.allOnes 6 ++ 0#20 ++ BitVec.allOnes 6 by decide]
  exact append_and_mask _ _ _

theorem funct_encodeR (r1 r2 r3 : RegIdx) (funct : BitVec 6) : (partition (encodeR r1 r2 r3 funct)).funct = funct :=
  congrArg Fields.funct (partition_R r1 r2 r3 0#5 funct)

/-- The word of an instruction matches the row of its mnemonic. -/
theorem exists_row_of_encode (i : Instr) :
    ∃ row ∈ opcodeRows, encode i &&& row.mask = row.value ∧ i.mnemonic = row.mnemonic := by
  cases i with
  | add | sub | and | or | slt | sltu =>
    simp [opcodeRows, Instr.mnemonic, encode, and_functMask, Laws.Opcode.op_encodeR, funct_encodeR]
  | addi | lw | sw | beq => simp [opcodeRows, Instr.mnemonic, encode, and_opcodeMask, Laws.Opcode.op_encodeI]
  | j target => simp [opcodeRows, Instr.mnemonic, encode, and_opcodeMask, (partition_J target).1]

/-- No mask reads bits 10..6, so under every mask a word is the encoding of what it decodes to. -/
theorem and_mask_of_decode (hrow : row ∈ opcodeRows) (h : decode Machine.hardware w = .ok i) :
    w &&& row.mask = encode i &&& row.mask := by
  have hmask : ∀ row ∈ opcodeRows, 0xFFFFF83F#32 &&& row.mask = row.mask := by decide
  rw [encodeDecode w i h]
  split
  · rw [BitVec.and_assoc, hmask row hrow]
  · rfl

/-- The function alone decides the mnemonic under opcode 0. -/
theorem decodeFunct_mnemonic_congr (hfunct : f.funct = g.funct) :
    (decodeFunct c f).map Instr.mnemonic = (decodeFunct c g).map Instr.mnemonic := by
  unfold decodeFunct decodeFunct43
  rw [hfunct]
  cases c.funct43Mode <;> split_ifs <;> rfl

/-- The opcode decides the mnemonic, with the function under opcode 0. -/
theorem decodeFields_mnemonic_congr (hop : f.op = g.op) (hfunct : f.op = 0#6 → f.funct = g.funct) :
    (decodeFields c f).map Instr.mnemonic = (decodeFields c g).map Instr.mnemonic := by
  unfold decodeFields
  rw [← hop]
  split_ifs with hzero
  · exact decodeFunct_mnemonic_congr (hfunct hzero)
  all_goals rfl

theorem decode_row_value :
    ∀ row ∈ opcodeRows, (decode Machine.hardware row.value).map Instr.mnemonic = .ok row.mnemonic := by
  decide

/-- Every mask covers its row's value and the opcode, and the function where the opcode is 0. -/
theorem row_mask_covers :
    ∀ row ∈ opcodeRows, row.value &&& row.mask = row.value ∧ row.mask.extractLsb' 26 6 = BitVec.allOnes 6 ∧
      ((partition row.value).op = 0#6 → row.mask.extractLsb' 0 6 = BitVec.allOnes 6) := by
  decide

/-- A word that matches a row has the mnemonic of the row's value, which is the row's. -/
theorem decode_of_matches (hrow : row ∈ opcodeRows) (h : w &&& row.mask = row.value) :
    ∃ i, decode Machine.hardware w = .ok i ∧ i.mnemonic = row.mnemonic := by
  obtain ⟨hvalue, hmaskop, hmaskfunct⟩ := row_mask_covers row hrow
  have hand : w &&& row.mask = row.value &&& row.mask := h.trans hvalue.symm
  have hop : (partition w).op = (partition row.value).op := extractLsb'_eq_of_and_eq hmaskop hand
  have hfunct : (partition w).op = 0#6 → (partition w).funct = (partition row.value).funct := fun hzero =>
    extractLsb'_eq_of_and_eq (hmaskfunct (hop ▸ hzero)) hand
  have hname : (decode Machine.hardware w).map Instr.mnemonic = .ok row.mnemonic :=
    (decodeFields_mnemonic_congr hop hfunct).trans (decode_row_value row hrow)
  cases hd : decode Machine.hardware w with
  | error e => simp [hd, Except.map] at hname
  | ok i => exact ⟨i, rfl, by simpa [hd, Except.map] using hname⟩

theorem row_eq_of_mnemonic_eq :
    ∀ row ∈ opcodeRows, ∀ row' ∈ opcodeRows, row.mnemonic = row'.mnemonic → row = row' := by
  decide

/-- Settles O28: a decoded word matches the row of its instruction, and the mnemonic names the row. -/
theorem opcodeTable : Obligations.OpcodeTable := by
  refine ⟨fun w row hrow => ⟨decode_of_matches hrow, ?_⟩, fun w row row' hrow hrow' h h' => ?_⟩
  · rintro ⟨i, hi, hname⟩
    obtain ⟨row', hrow', hmatch, hname'⟩ := exists_row_of_encode i
    obtain rfl := row_eq_of_mnemonic_eq row hrow row' hrow' (hname.symm.trans hname')
    exact (and_mask_of_decode hrow hi).trans hmatch
  · obtain ⟨i, hi, hname⟩ := decode_of_matches hrow h
    obtain ⟨i', hi', hname'⟩ := decode_of_matches hrow' h'
    obtain rfl := Except.ok.inj (hi.symm.trans hi')
    exact row_eq_of_mnemonic_eq row hrow row' hrow' (hname.symm.trans hname')

/-- Settles O30: ten closed words. -/
theorem decodedWords : Obligations.DecodedWords := by
  unfold Obligations.DecodedWords
  decide

end Sys2Proof

/-!
SUPPORT. Every step keeps the invariant: one lemma per state operation, then one per way a step ends.
-/

namespace Sys2Proof.Machine

variable {s t : State} {i : Instr}

theorem State.Inv.setReg (h : s.Inv) (d : RegIdx) (v : Word) : (s.setReg d v).Inv :=
  ⟨h.memWf, h.memWithin, h.pcAligned, h.causeNone⟩

theorem State.Inv.setPc (h : s.Inv) {pc : Word} (hpc : pc.extractLsb' 0 2 = 0#2) : (s.setPc pc).Inv :=
  ⟨h.memWf, h.memWithin, hpc, h.causeNone⟩

theorem State.Inv.store (h : s.Inv) {a : Word} (ha : legal hardware a = true) (v : Word) :
    (s.setMem (memWrite s.mem a v)).Inv :=
  ⟨memWrite_wf s.mem a v h.memWf, memWrite_within h.memWithin ha, h.pcAligned, h.causeNone⟩

theorem State.Inv.halt (h : s.Inv) {k : HaltCause} (hk : k ≠ .none) : (s.halt k).Inv :=
  ⟨h.memWf, h.memWithin, h.pcAligned, by simpa using hk⟩

theorem decodeErrorCause_ne_none (e : DecodeError) : e.cause ≠ .none := by
  cases e <;> simp [DecodeError.cause]

/-- The invariant through each of the five results of an instruction; every target is aligned because pc is. -/
theorem State.Inv.exec (h : s.Inv) (hexec : Machine.exec i s = .next t) : t.Inv := by
  have hseq := aligned_seqPc h.pcAligned
  cases execResult_of_exec hexec with
  | write d v => exact (h.setReg d v).setPc hseq
  | store r1 r2 offset hl => exact (h.store hl (s.reg r2)).setPc hseq
  | branch r1 r2 offset =>
    refine h.setPc ?_
    split
    · exact aligned_branchTarget hseq offset
    · exact hseq
  | jump target => exact h.setPc (aligned_jumpTarget _ _ target)
  | halt => exact h.halt (by decide)

/-- Settles O56: the halts at fetch and decode have a cause, and an instruction keeps the invariant. -/
theorem stepKeepsInv : Obligations.StepKeepsInv := by
  intro s t h hstep
  obtain ⟨-, ⟨-, rfl⟩ | ⟨-, ⟨e, -, rfl⟩ | ⟨i, -, hexec⟩⟩⟩ := step_cases hstep
  · exact h.halt (by decide)
  · exact h.halt (decodeErrorCause_ne_none e)
  · exact h.exec hexec

/-- Settles O57: the memory of the reset state lists nothing. -/
theorem resetInv : Obligations.ResetInv where
  memWf := Memory.wf_nil
  memWithin := by intro c hc; cases hc
  pcAligned := by decide
  causeNone := by decide

end Sys2Proof.Machine

/-!
SUPPORT. The rules of `lw` and `sw` (43_load_store.md), their frames, and what a read sees after a store
(20_memory.md sections 1, 2, 4).
-/

namespace Sys2Proof.Machine

/-! ## Addresses and words -/

section

variable {m m' : Memory}

/-- Settles O19: the two low bits as a remainder, and this hardware's bound. -/
theorem legalAddresses : Obligations.LegalAddresses := by
  intro a
  rw [legal_iff, aligned_iff]
  rfl

theorem memRead_eq_word (m : Memory) (a : Word) : memRead m a = m.word (a.toNat / 4) := by
  rw [memRead, wordIndex_eq]

theorem memWrite_eq_setWord (m : Memory) (a v : Word) : memWrite m a v = m.setWord (a.toNat / 4) v := by
  rw [memWrite, wordIndex_eq]

/-- A read of the word just written. -/
theorem memRead_memWrite (h : m.wf) (a v : Word) : memRead (memWrite m a v) a = v :=
  (word_memWrite h a v _).trans (if_pos rfl)

/-- Every other word is as before, in a memory of any form. -/
theorem word_memWrite_ne (m : Memory) (a v : Word) {k : Nat} (hk : k ≠ wordIndex a) :
    (memWrite m a v).word k = m.word k := by
  have hbyte (d : Nat) (hd : d < 4) : (memWrite m a v).readByte (4 * k + d) = m.readByte (4 * k + d) :=
    Memory.readByte_setWord_outside m _ _ v (by omega)
  have hlow := hbyte 0 (by decide)
  rw [Nat.add_zero] at hlow
  simp only [Memory.word, hbyte 3 (by decide), hbyte 2 (by decide), hbyte 1 (by decide), hlow]

theorem append_inj {high low : Nat} {x x' : BitVec high} {y y' : BitVec low} (h : x ++ y = x' ++ y') :
    x = x' ∧ y = y' :=
  ⟨by simpa only [BitVec.extractLsb'_append_eq_left] using congrArg (BitVec.extractLsb' low high) h,
    by simpa only [BitVec.extractLsb'_append_eq_right] using congrArg (BitVec.extractLsb' 0 low) h⟩

/-- Words that agree have the same four bytes. -/
theorem Memory.readByte_eq_of_word_eq {k d : Nat} (hd : d < 4) (h : m.word k = m'.word k) :
    m.readByte (4 * k + d) = m'.readByte (4 * k + d) := by
  obtain ⟨h321, h0⟩ := append_inj h
  obtain ⟨h32, h1⟩ := append_inj h321
  obtain ⟨h3, h2⟩ := append_inj h32
  interval_cases d
  · exact h0
  · exact h1
  · exact h2
  · exact h3

/-- Past the bound of a memory every byte is unlisted. -/
theorem Memory.readByte_of_within {n a : Nat} (h : m.within n) (ha : n ≤ a) : m.readByte a = unlistedByte :=
  Memory.readByte_of_forall_ne m a fun c hc => ((h c hc).trans_le ha).ne

/-- Settles O21: a canonical memory is determined by its bytes, those below the bound by the words they lie in. -/
theorem wordsDetermineMemory : Obligations.WordsDetermineMemory := by
  intro m m' hm hm' hbound hbound' hwords
  refine Memory.eq_of_readByte m m' hm hm' fun a => ?_
  by_cases ha : a < hardware.memBytes
  · have hk : a / 4 < hardware.memWords := Nat.div_lt_div_of_lt_of_dvd (by decide) ha
    have hbyte := Memory.readByte_eq_of_word_eq (Nat.mod_lt a (by decide)) (hwords (a / 4) hk)
    rwa [Nat.div_add_mod] at hbyte
  · rw [Memory.readByte_of_within hbound (not_lt.1 ha), Memory.readByte_of_within hbound' (not_lt.1 ha)]

end

/-! ## Load -/

section

variable {r1 r2 r4 : RegIdx} {offset : Offset} {s t : State}

/-- What 43_load_store.md says of both instructions: a step that fetches the I-format word of `i` ends as `exec i` does,
by the legality of the address. -/
theorem loadStore_rule {op : BitVec 6} {i : Instr} {ea : Word} {done halted : State}
    (hlegal : legal hardware ea = true → exec i s = .next done)
    (hillegal : legal hardware ea = false → exec i s = .next halted)
    (hmap : ∀ r3 funct target, decodeFields hardware ⟨op, r1, r2, r3, funct, offset, target⟩ = .ok i) :
    (legal hardware ea = true → exec i s = .next done) ∧ (legal hardware ea = false → exec i s = .next halted) ∧
    (s.fetches (op ++ r1 ++ r2 ++ offset) → step s = .next (if legal hardware ea then done else halted)) ∧
    s.fetchGuard := by
  refine ⟨hlegal, hillegal, fun hfetch => ?_, fetchGuard_holds s⟩
  rw [step_of_fetches_I hfetch hmap]
  split
  · next hl => exact hlegal hl
  · next hl => exact hillegal (Bool.eq_false_of_not_eq_true hl)

/-- A load that completes writes x[r2] and pc, and no other field. -/
theorem exec_lw_of_legal (h : legal hardware (s.reg r1 + offset.signExtend 32) = true) :
    exec (.lw r1 r2 offset) s = .next { s with
      regs := s.regs.set r2.toNat (s.mem.word ((s.reg r1 + offset.signExtend 32).toNat / 4)) r2.isLt
      pc := s.pc + 4#32 } := by
  rw [← memRead_eq_word]
  exact loadWord_of_legal h

theorem exec_lw_of_illegal (h : legal hardware (s.reg r1 + offset.signExtend 32) = false) :
    exec (.lw r1 r2 offset) s = .next { s with status := .halted, cause := .invalidMemoryAddress } :=
  loadWord_of_illegal h

/-- Settles O8: the two ends of a load, and opcode 35 is `lw` for every r3, funct and target. -/
theorem lwResult : Obligations.LwResult := fun _ _ _ _ =>
  loadStore_rule exec_lw_of_legal exec_lw_of_illegal fun _ _ _ => rfl

/-- Settles O13: a completed load writes one register, a halting one none. -/
theorem loadFrame : Obligations.LoadFrame := by
  intro r1 r2 offset s t h
  obtain ⟨hl, rfl⟩ | ⟨hl, rfl⟩ := loadWord_cases h
  · exact ⟨fun r hr => State.reg_setReg_ne s r2 _ hr, fun _ => rfl, fun _ => ⟨rfl, rfl⟩, by simp [hl]⟩
  · exact ⟨fun _ _ => rfl, fun _ => rfl, by simp [hl], fun _ => ⟨rfl, rfl⟩⟩

/-! ## Store -/

/-- A store that completes writes one word of memory and pc, and no other field. -/
theorem exec_sw_of_legal (h : legal hardware (s.reg r1 + offset.signExtend 32) = true) :
    exec (.sw r1 r2 offset) s = .next { s with
      mem := s.mem.setWord ((s.reg r1 + offset.signExtend 32).toNat / 4) (s.reg r2)
      pc := s.pc + 4#32 } := by
  rw [← memWrite_eq_setWord]
  exact storeWord_of_legal h

theorem exec_sw_of_illegal (h : legal hardware (s.reg r1 + offset.signExtend 32) = false) :
    exec (.sw r1 r2 offset) s = .next { s with status := .halted, cause := .invalidMemoryAddress } :=
  storeWord_of_illegal h

/-- Settles O9: the two ends of a store, and opcode 43 is `sw` for every r3, funct and target. -/
theorem swResult : Obligations.SwResult := fun _ _ _ _ =>
  loadStore_rule exec_sw_of_legal exec_sw_of_illegal fun _ _ _ => rfl

/-- A store to a legal address changes the four bytes at it alone, in a memory of any form. -/
theorem readByte_memWrite_outside {c : Config} {a : Word} (ha : legal c a = true) (m : Memory) (v : Word) {b : Nat}
    (hb : b < a.toNat ∨ a.toNat + 4 ≤ b) : (memWrite m a v).readByte b = m.readByte b := by
  rw [← (legal_bytes ha).1] at hb
  exact Memory.readByte_setWord_outside m _ b v hb

/-- Settles O14: a completed store writes memory and pc, a halting one neither. -/
theorem storeFrame : Obligations.StoreFrame := by
  intro r1 r2 offset s t h
  obtain ⟨hl, rfl⟩ | ⟨hl, rfl⟩ := storeWord_cases h
  · refine ⟨rfl, fun a ha b hb => ?_, fun _ => ⟨rfl, rfl⟩, by simp [hl]⟩
    obtain rfl := Option.some.inj ha
    exact readByte_memWrite_outside hl s.mem _ hb
  · exact ⟨rfl, fun _ _ _ _ => rfl, by simp [hl], fun _ => ⟨rfl, rfl⟩⟩

/-- Settles O17: of the five results of an instruction, `store` alone changes memory. -/
theorem onlyStoresWriteMemory : Obligations.OnlyStoresWriteMemory := by
  intro s t h hmem
  obtain ⟨-, ⟨-, rfl⟩ | ⟨-, ⟨e, -, rfl⟩ | ⟨i, hi, hexec⟩⟩⟩ := step_cases h
  · exact absurd rfl hmem
  · exact absurd rfl hmem
  · cases execResult_of_exec hexec with
    | store r1 r2 offset hl => exact ⟨r1, r2, offset, hi, hl, fun _ hk => word_memWrite_ne s.mem _ _ hk⟩
    | write | branch | jump | halt => exact absurd rfl hmem

/-! ## Reads after a store -/

/-- The state a completed store answers. -/
theorem eq_of_exec_sw (hl : legal hardware (effectiveAddress s r1 offset) = true)
    (h : exec (.sw r1 r2 offset) s = .next t) :
    t = (s.setMem (memWrite s.mem (effectiveAddress s r1 offset) (s.reg r2))).setPc s.seqPc :=
  (Host.Outcome.next.inj ((storeWord_of_legal hl).symm.trans h)).symm

/-- Settles O22: the store leaves the base alone, so the load reads the word just written. -/
theorem loadReturnsLastStore : Obligations.LoadReturnsLastStore := by
  intro r1 r2 r4 offset s t hinv hl h
  obtain rfl := eq_of_exec_sw hl h
  refine (loadWord_of_legal hl).trans ?_
  rw [State.setPc_mem, State.setMem_mem, memRead_memWrite hinv.memWf]
  rfl

theorem fetch_of_legal {c : Config} (h : legal c s.pc = true) : fetch c s = some (memRead s.mem s.pc) := if_pos h

/-- Settles O23: a fetch is a read at pc. -/
theorem fetchSeesEarlierStore : Obligations.FetchSeesEarlierStore := by
  intro r1 r2 offset s t u hinv hl h hmem hpc
  obtain rfl := eq_of_exec_sw hl h
  rw [fetch_of_legal (hpc ▸ hl), hmem, hpc, State.setPc_mem, State.setMem_mem, memRead_memWrite hinv.memWf]

/-- Settles O24: the word fetched is decoded before the store, which is at the legal address pc. -/
theorem storeToOwnWord : Obligations.StoreToOwnWord := by
  intro r1 r2 offset s hinv hfetch hea
  have hl : legal hardware (effectiveAddress s r1 offset) = true := hea ▸ hfetch.2.1
  have hstep := step_of_fetches hfetch (decodeEncode hardware _ rfl)
  refine ⟨_, hstep.trans (storeWord_of_legal hl), ?_, rfl, rfl⟩
  rw [← hea]
  exact memRead_memWrite hinv.memWf _ _

/-! ## The word the host places -/

theorem decode_of_decodeTableWord {nbits w : Nat} {i : Instr} (h : decodeTableWord nbits w = some i) :
    decode hardware (tableWord nbits w) = .ok i := by
  unfold decodeTableWord at h
  split at h
  · next hd => exact hd.trans (congrArg Except.ok (Option.some.inj h))
  · cases h

/-- Settles O32: the word placed at pc is the word fetched. -/
theorem withFetchWordRuns : Obligations.WithFetchWordRuns := by
  intro s nbits w i hwf hs hl hi
  have hfetch : (s.withFetchWord nbits w).fetches (tableWord nbits w) := ⟨hs, hl, memRead_memWrite hwf _ _⟩
  exact step_of_fetches hfetch (decode_of_decodeTableWord hi)

end

end Sys2Proof.Machine

/-!
SUPPORT. The rules of `slt`, `sltu` (41_register_format.md R90, R91), `beq` and `j` (44_control_transfer.md R97, R98),
and the frames of every instruction that neither loads nor stores.
-/

namespace Sys2Proof.Machine

section

variable {r1 r2 r3 : RegIdx} {i : Instr} {s t : State}

/-! ## Comparisons -/

theorem aluResult_slt_eq_ite (a b : Word) : aluResult .slt a b = if a.toInt < b.toInt then 1#32 else 0#32 := by
  simp [truthWord, BitVec.slt]

theorem aluResult_sltu_eq_ite (a b : Word) : aluResult .sltu a b = if a.toNat < b.toNat then 1#32 else 0#32 := by
  simp [truthWord, BitVec.ult]

/-- Settles O5: `register_rule` for function 42, with the ALU's signed comparison. -/
theorem sltResult : Obligations.SltResult := by
  intro r1 r2 r3 s
  rw [← aluResult_slt_eq_ite]
  exact register_rule (registerOp_eq .slt r1 r2 r3 s) fun _ _ => rfl

/-- Settles O6: `register_rule` for function 43 under this hardware's mode, with the ALU's unsigned comparison. -/
theorem sltuResult : Obligations.SltuResult := by
  intro r1 r2 r3 s
  rw [← aluResult_sltu_eq_ite]
  exact register_rule (registerOp_eq .sltu r1 r2 r3 s) fun _ _ => rfl

/-! ## Control transfer -/

/-- The state `beq` answers: pc alone, by the Zero of the difference. -/
theorem exec_beq (r1 r2 : RegIdx) (offset : Offset) (s : State) :
    exec (.beq r1 r2 offset) s = .next { s with
      pc := if s.reg r1 = s.reg r2 then s.pc + 4#32 + (offset.signExtend 32 <<< 2) else s.pc + 4#32 } := by
  simp only [exec, execBeq, aluResult_sub, zeroFlag_sub, beq_iff_eq]
  rfl

/-- Settles O10: opcode 4 is `beq` for every r3, funct and target, so the step answers what `exec_beq` says. -/
theorem beqResult : Obligations.BeqResult := fun r1 r2 offset s =>
  ⟨exec_beq r1 r2 offset s,
    fun h => (step_of_fetches_I h fun _ _ _ => rfl).trans (exec_beq r1 r2 offset s),
    fetchGuard_holds s⟩

/-- The state `j` answers: pc alone, in the region of pc + 4. -/
theorem exec_j (target : Target) (s : State) :
    exec (.j target) s = .next { s with pc := (s.pc + 4#32).extractLsb' 28 4 ++ target ++ 0#2 } := rfl

/-- Settles O11: the J-format word decodes to its target. -/
theorem jResult : Obligations.JResult := fun target s =>
  ⟨exec_j target s,
    fun h => (step_of_fetches h (decode_encodeJ hardware target)).trans (exec_j target s),
    fetchGuard_holds s⟩

/-! ## Frames -/

/-- An instruction that accesses no memory leaves every byte of it alone, and status and cause. -/
theorem exec_frame (hi : ∀ r1 r2 offset, i ≠ .lw r1 r2 offset ∧ i ≠ .sw r1 r2 offset) (h : exec i s = .next t) :
    (∀ a, t.mem.readByte a = s.mem.readByte a) ∧ t.status = s.status ∧ t.cause = s.cause := by
  cases execResult_of_exec h with
  | write | branch | jump => exact ⟨fun _ => rfl, rfl, rfl⟩
  | store r1 r2 offset => exact absurd rfl (hi r1 r2 offset).2
  | halt r1 r2 offset hi' =>
    obtain rfl | rfl := hi'
    · exact absurd rfl (hi r1 r2 offset).1
    · exact absurd rfl (hi r1 r2 offset).2

/-- Settles O12: each listed instruction has the listed destination and accesses no memory. -/
theorem registerResultFrame : Obligations.RegisterResultFrame := by
  intro r1 r2 r3 offset s t p hp h
  have hp' : destReg p.1 = some p.2 ∧ ∀ r1 r2 offset, p.1 ≠ .lw r1 r2 offset ∧ p.1 ≠ .sw r1 r2 offset := by
    fin_cases hp <;> simp [destReg]
  obtain ⟨hdest, haccess⟩ := hp'
  refine ⟨fun r hr => exec_reg_of_ne_destReg h ?_, exec_frame haccess h⟩
  rw [hdest]
  exact fun e => hr (Option.some.inj e).symm

/-- Settles O15: `beq` and `j` have no destination and access no memory. -/
theorem controlFrame : Obligations.ControlFrame := by
  intro r1 r2 offset target s t i hi h
  have hi' : destReg i = none ∧ ∀ r1 r2 offset, i ≠ .lw r1 r2 offset ∧ i ≠ .sw r1 r2 offset := by
    fin_cases hi <;> simp [destReg]
  obtain ⟨hdest, haccess⟩ := hi'
  exact ⟨fun r => exec_reg_of_ne_destReg h (by simp [hdest]), exec_frame haccess h⟩

/-- Settles O18: the register file's read-after-write law, and two register results in a row. -/
theorem registerZeroIsOrdinary : Obligations.RegisterZeroIsOrdinary := by
  refine ⟨fun s i k v => ?_, fun r1 r2 r3 offset s t u ht hu => ?_⟩
  · split
    · next h => rw [h, State.reg_setReg_same]
    · next h => exact State.reg_setReg_ne s i v h
  · obtain rfl := Host.Outcome.next.inj ht
    obtain rfl := registerOp_next hu
    exact ⟨State.reg_setReg_same s 0#5 _, State.reg_setReg_same _ r3 _⟩

/-- Settles O31: the law of a fetched word. -/
theorem stepRunsDecoded : Obligations.StepRunsDecoded := fun _ _ _ h hw => step_of_fetches h hw

end

end Sys2Proof.Machine

/-!
SUPPORT. Which states halt, with which cause (60_exceptions.md section 1), and what the host sees of it
(70_reset_and_hazards.md section 2).
-/

namespace Sys2Proof.Machine

section

variable {s t : State} {i : Instr} {k : HaltCause}

/-! ## The reasons for a halt -/

/-- Why the step of a running core halts, with the cause it gives (60_exceptions.md R102 to R105). -/
inductive HaltReason (s : State) : HaltCause → Prop where
  | fetch (hl : legal hardware s.pc = false) : HaltReason s .invalidFetchAddress
  | decode (hl : legal hardware s.pc = true) (e : DecodeError)
      (he : Sys2Proof.decode hardware (memRead s.mem s.pc) = .error e) : HaltReason s e.cause
  | access (hl : legal hardware s.pc = true) (r1 r2 : RegIdx) (offset : Offset)
      (hi : Sys2Proof.decode hardware (memRead s.mem s.pc) = .ok (.lw r1 r2 offset) ∨
        Sys2Proof.decode hardware (memRead s.mem s.pc) = .ok (.sw r1 r2 offset))
      (hea : legal hardware (effectiveAddress s r1 offset) = false) : HaltReason s .invalidMemoryAddress

/-- A step that leaves the core halted has a reason, and wrote status and cause alone. -/
theorem haltReason_of_step (h : step s = .next t) (ht : t.status = .halted) :
    ∃ k, HaltReason s k ∧ t = s.halt k := by
  obtain ⟨hs, ⟨hl, rfl⟩ | ⟨hl, ⟨e, he, rfl⟩ | ⟨i, hi, hexec⟩⟩⟩ := step_cases h
  · exact ⟨_, .fetch hl, rfl⟩
  · exact ⟨_, .decode hl e he, rfl⟩
  · cases execResult_of_exec hexec with
    | write | store | branch | jump => simp [hs] at ht
    | halt r1 r2 offset hi' hea =>
      have haccess := hi'.imp (fun e => hi.trans (congrArg Except.ok e)) fun e => hi.trans (congrArg Except.ok e)
      exact ⟨_, .access hl r1 r2 offset haccess hea, rfl⟩

/-- A running core with a reason to halt does. -/
theorem HaltReason.haltsWith (h : HaltReason s k) (hs : s.status = .running) : s.haltsWith k := by
  cases h with
  | fetch hl => exact fetchGuard_holds s hs hl
  | decode hl e he => exact haltsWith_of_decode_error ⟨hs, hl, rfl⟩ he
  | access hl r1 r2 offset hi hea =>
    obtain hi | hi := hi
    · exact (step_of_fetches ⟨hs, hl, rfl⟩ hi).trans (loadWord_of_illegal hea)
    · exact (step_of_fetches ⟨hs, hl, rfl⟩ hi).trans (storeWord_of_illegal hea)

theorem haltsWith_iff_haltReason (hs : s.status = .running) : s.haltsWith k ↔ HaltReason s k := by
  refine ⟨fun h => ?_, fun h => h.haltsWith hs⟩
  obtain ⟨k', hreason, heq⟩ := haltReason_of_step h rfl
  obtain rfl : k = k' := congrArg State.cause heq
  exact hreason

theorem HaltReason.ne_none (h : HaltReason s k) : k ≠ .none := by
  cases h with
  | fetch | access => decide
  | decode hl e => exact decodeErrorCause_ne_none e

/-- InvalidFetchAddress has one reason: a decode error has another cause. -/
theorem haltReason_invalidFetchAddress_iff :
    HaltReason s .invalidFetchAddress ↔ legal hardware s.pc = false := by
  refine ⟨fun h => ?_, .fetch⟩
  generalize hk : HaltCause.invalidFetchAddress = k at h
  cases h with
  | fetch hl => exact hl
  | decode hl e => cases e <;> cases hk
  | access => cases hk

/-- InvalidMemoryAddress has one reason: a decode error has another cause. -/
theorem haltReason_invalidMemoryAddress_iff :
    HaltReason s .invalidMemoryAddress ↔ legal hardware s.pc = true ∧ ∃ r1 r2 offset,
      (decode hardware (memRead s.mem s.pc) = .ok (.lw r1 r2 offset) ∨
        decode hardware (memRead s.mem s.pc) = .ok (.sw r1 r2 offset)) ∧
      legal hardware (effectiveAddress s r1 offset) = false := by
  refine ⟨fun h => ?_, fun ⟨hl, r1, r2, offset, hi, hea⟩ => .access hl r1 r2 offset hi hea⟩
  generalize hk : HaltCause.invalidMemoryAddress = k at h
  cases h with
  | fetch => cases hk
  | decode hl e => cases e <;> cases hk
  | access hl r1 r2 offset hi hea => exact ⟨hl, r1, r2, offset, hi, hea⟩

/-- Settles O40: the one reason for InvalidFetchAddress; MEM_BYTES is not legal, and the word before it is the last. -/
theorem invalidFetchHalts : Obligations.InvalidFetchHalts := by
  refine ⟨fun s hs => (haltsWith_iff_haltReason hs).trans haltReason_invalidFetchAddress_iff, ?bound, ?last⟩
  case bound =>
    intro s hs hpc
    have hillegal : ¬ legal hardware s.pc = true := fun hl =>
      (((legal_iff _ _).1 hl).2.trans_eq hpc.symm).false
    exact fetchGuard_holds s hs (Bool.eq_false_of_not_eq_true hillegal)
  case last =>
    intro s hpc
    have hl : legal hardware s.pc = true :=
      (legal_iff _ _).2 ⟨(aligned_iff _).2 (by rw [hpc]; decide), by rw [hpc]; decide⟩
    rw [fetch_of_legal hl, memRead_eq_word, hpc]
    rfl

/-- Settles O41: the one reason for InvalidMemoryAddress. -/
theorem invalidMemoryHalts : Obligations.InvalidMemoryHalts := fun _ hs =>
  (haltsWith_iff_haltReason hs).trans haltReason_invalidMemoryAddress_iff

/-! ## A halted core -/

theorem step_of_halted (h : s.status = .halted) : step s = .fault .coreHalted := by
  simp [step, h]

/-- Settles O42: the halted state is `s.halt k`, and a halted core takes no step. -/
theorem haltIsPrecise : Obligations.HaltIsPrecise := by
  intro s t h ht
  obtain ⟨k, hreason, rfl⟩ := haltReason_of_step h ht
  refine ⟨rfl, rfl, rfl, hreason.ne_none, fun r hr => ?_⟩
  rw [step_of_halted ht] at hr
  cases hr

/-- Settles O43: started again, the halted state is the state before it under the cause NONE, which a step does not
read. -/
theorem haltRecurs : Obligations.HaltRecurs := by
  intro s t h ht
  have hrestart : { t with status := .running, cause := .none } = { s with cause := HaltCause.none } := by
    obtain ⟨k, -, rfl⟩ := haltReason_of_step h ht
    rw [← (step_cases h).1]
    rfl
  rw [hrestart, step_withRunningCause h, State.withRunningCause_of_halted ht]

/-! ## A running core -/

/-- Every instruction answers a next state. -/
theorem exists_exec_next (i : Instr) (s : State) : ∃ t, exec i s = .next t := by
  cases i with
  | add | sub | and | or | slt | sltu | addi | beq | j => exact ⟨_, rfl⟩
  | lw | sw =>
    simp only [exec, execLw, execSw, loadWord, storeWord]
    split <;> exact ⟨_, rfl⟩

/-- A running core halts at fetch or decode, or runs an instruction. -/
theorem exists_step_next (hs : s.status = .running) : ∃ t, step s = .next t := by
  cases hl : legal hardware s.pc with
  | false => exact ⟨_, fetchGuard_holds s hs hl⟩
  | true =>
    cases hd : decode hardware (memRead s.mem s.pc) with
    | error e => exact ⟨_, haltsWith_of_decode_error ⟨hs, hl, rfl⟩ hd⟩
    | ok i =>
      rw [step_of_fetches ⟨hs, hl, rfl⟩ hd]
      exact exists_exec_next i s

/-- Settles O35: the two statuses. -/
theorem runningStepsHaltedDoesNot : Obligations.RunningStepsHaltedDoesNot := fun _ =>
  ⟨exists_step_next, step_of_halted⟩

/-- Settles O36: the pc of each result of an instruction that does not halt; one that writes a register is neither `beq`
nor `j`. -/
theorem pcAdvance : Obligations.PcAdvance := by
  intro s t h ht
  obtain ⟨-, ⟨-, rfl⟩ | ⟨-, ⟨e, -, rfl⟩ | ⟨i, hi, hexec⟩⟩⟩ := step_cases h
  · simp at ht
  · simp at ht
  refine ⟨i, hi, ?_⟩
  cases execResult_of_exec hexec with
  | write d v hd =>
    refine .inr (.inr ⟨?_, ?_, rfl⟩)
    · rintro r1 r2 offset rfl; cases hd
    · rintro target rfl; cases hd
  | store r1 r2 offset => exact .inr (.inr ⟨by simp, by simp, rfl⟩)
  | branch r1 r2 offset =>
    by_cases heq : s.reg r1 = s.reg r2
    · exact .inl ⟨r1, r2, offset, rfl, heq, if_pos heq⟩
    · refine .inr (.inr ⟨?_, by simp, if_neg heq⟩)
      rintro _ _ _ ⟨⟩
      exact heq
  | jump target => exact .inr (.inl ⟨target, rfl, rfl⟩)
  | halt => simp at ht

/-- An offset of -1 takes a branch back to itself. -/
theorem self_branch_pc (pc : Word) : pc + 4#32 + ((0xFFFF#16).signExtend 32 <<< 2) = pc := by
  rw [BitVec.add_assoc, show 4#32 + ((0xFFFF#16).signExtend 32 <<< 2) = 0#32 by decide, BitVec.add_zero]

/-- A state that one step gives back is given back by any number of steps. -/
theorem run_of_step_eq_self {M : Host.Core} {s : M.State} (h : M.step s = .next s) (n : Nat) :
    M.run n s = .next s := by
  induction n with
  | zero => rfl
  | succ n ih => rw [Host.Core.run, h]; exact ih

/-- Settles O37: one step answers the same state, so any number of them does. -/
theorem selfBranchLoops : Obligations.SelfBranchLoops := by
  intro r1 r2 s heq hfetch
  have hstep : step s = .next s := by
    rw [step_of_fetches hfetch (decodeEncode hardware _ rfl), exec_beq, if_pos heq, self_branch_pc]
  exact run_of_step_eq_self (M := core) hstep

/-! ## The host -/

/-- Step answers what the step of the core answers, with the reply to its state. -/
theorem hostOp_step_of_next (h : step s = .next t) : hostOp .step s = .next (t, stepReply t) := by
  simp [hostOp, h]

/-- A host operation that is neither Initialize nor Step answers the state it was given. -/
theorem hostOp_state_eq {op : HostOp} {reply : HostReply} (h : hostOp op s = .next (t, reply))
    (hlaunch : ∀ initPc initRegs initMem, op ≠ .launch initPc initRegs initMem) (hstep : op ≠ .step) : t = s := by
  cases op with
  | launch initPc initRegs initMem => exact absurd rfl (hlaunch initPc initRegs initMem)
  | step => exact absurd rfl hstep
  | inspectReg | inspectWord | inspectPc | inspectStatus =>
    exact (congrArg Prod.fst (Host.Outcome.next.inj h)).symm

/-- Settles O60: Step of a halted core answers nothing, and of a running one the reply by the status after it. -/
theorem hostOperations : Obligations.HostOperations := by
  refine ⟨fun op s t reply h hlaunch => ⟨fun hs => ?_, hostOp_state_eq h hlaunch⟩, fun s hs => ?_⟩
  · refine hostOp_state_eq h hlaunch ?_
    rintro rfl
    simp [hostOp, step_of_halted hs] at h
  · obtain ⟨t, ht⟩ := exists_step_next hs
    refine ⟨t, ht, ?_⟩
    rw [hostOp_step_of_next ht]
    cases hstatus : t.status with
    | running => exact .inl ⟨rfl, by simp [stepReply, hstatus]⟩
    | halted => exact .inr ⟨rfl, by simp [stepReply, hstatus]⟩

end

/-! ## Launch -/

/-- The words of INIT_MEM, read back. -/
theorem Memory.word_ofWordsFrom (ws : List Word) (k j : Nat) (h : j < ws.length) :
    (Memory.ofWordsFrom k ws).word (k + j) = ws[j] := by
  induction ws generalizing k j with
  | nil => cases h
  | cons w ws ih =>
    cases j with
    | zero => exact Memory.word_setWord_same _ k w (Memory.wf_ofWordsFrom ws (k + 1))
    | succ j =>
      rw [Memory.ofWordsFrom, Memory.word_setWord_ne _ k _ w (Memory.wf_ofWordsFrom ws (k + 1)) (by omega)]
      simpa [Nat.add_assoc, Nat.add_comm 1] using ih (k + 1) j (by simpa using h)

/-- INIT_MEM fills the array and no more. -/
theorem Memory.within_ofWordsFrom_launch (initMem : Vector Word hardware.memWords) :
    (Memory.ofWordsFrom 0 initMem.toList).within hardware.memBytes := by
  refine Memory.within_ofWordsFrom _ 0 _ ?_
  rw [Vector.length_toList]
  decide

/-- Settles O58: the fields are the host's own, and the memory is read back word by word. -/
theorem launchValues : Obligations.LaunchValues := by
  intro initPc initRegs initMem
  refine ⟨rfl, fun _ => rfl, fun k hk => ?_, rfl, rfl, fun hpc => ?_⟩
  · have hword := Memory.word_ofWordsFrom initMem.toList 0 k (by simpa using hk)
    rw [Nat.zero_add] at hword
    exact hword.trans (by simp)
  · exact ⟨Memory.wf_ofWordsFrom _ 0, Memory.within_ofWordsFrom_launch initMem, (aligned_iff initPc).2 hpc,
      iff_of_true rfl rfl⟩

/-- Zeros are not listed. -/
theorem Memory.ofWordsFrom_replicate_zero (n k : Nat) : Memory.ofWordsFrom k (List.replicate n 0#32) = [] := by
  induction n generalizing k with
  | zero => rfl
  | succ n ih =>
    rw [List.replicate_succ, Memory.ofWordsFrom, ih]
    rfl

/-- Settles O59: INIT_MEM of zeros lists nothing. -/
theorem resetIsALaunch : Obligations.ResetIsALaunch := by
  have hmem : Memory.ofWordsFrom 0 (Vector.replicate hardware.memWords 0#32).toList = [] := by
    rw [Vector.toList_replicate]
    exact Memory.ofWordsFrom_replicate_zero _ 0
  rw [Obligations.ResetIsALaunch, launchState, hmem]
  rfl

end Sys2Proof.Machine

/-!
SUPPORT. The datapath of every configuration read as one meaning per instruction (40_datapath.md R59), and what of it
the parameters decide (00_scope.md R6).
-/

namespace Sys2Proof.Machine

section

variable {c c' : Config} {f : Fields} {s t : State} {i : Instr} {e : DecodeError} {ctl : AluCtl}

/-! ## One meaning per instruction, under every configuration -/

/-- The meaning of an instruction under a configuration: `lw` and `sw` read MEM_BYTES, `j` reads JUMP_MODE, and every
other instruction is `exec`'s. -/
def execUnder (c : Config) : Instr → State → Host.Outcome State Fault Refusal
  | .lw r1 r2 offset, s => loadWord c (effectiveAddress s r1 offset) r2 s
  | .sw r1 r2 offset, s => storeWord c (effectiveAddress s r1 offset) (s.reg r2) s
  | .j target, s => .next (s.setPc (jumpTarget c.jumpMode s.seqPc target))
  | i, s => exec i s

/-- This hardware's meanings are the model's. -/
theorem execUnder_hardware (i : Instr) (s : State) : execUnder hardware i s = exec i s := by
  cases i <;> rfl

/-- Function 43 is decided by the mode, in the table and in the map. -/
theorem functTable_43 (c : Config) : functTable c 43#6 = funct43Ctl c.funct43Mode := rfl

theorem decodeFunct_43 (hf : f.funct = 43#6) : decodeFunct c f = decodeFunct43 c.funct43Mode f := by
  simp [decodeFunct, hf]

/-- Where the function table selects an ALU operation, the function map gives an instruction that means it
(notes/assumptions/14.md). -/
theorem decodeFunct_of_functTable_eq_some (h : functTable c f.funct = some ctl) :
    ∃ i, decodeFunct c f = .ok i ∧ ∀ s, execUnder c i s = registerOp ctl f.r1 f.r2 f.r3 s := by
  by_cases hf : f.funct = 43#6
  · rw [hf, functTable_43] at h
    rw [decodeFunct_43 hf]
    cases hmode : c.funct43Mode with
    | sltu | slt =>
      rw [hmode] at h
      obtain rfl := Option.some.inj h
      exact ⟨_, rfl, fun _ => rfl⟩
    | halt => rw [hmode] at h; cases h
  · unfold functTable at h
    unfold decodeFunct
    split_ifs at h ⊢
    all_goals
      obtain rfl := Option.some.inj h
      exact ⟨_, rfl, fun _ => rfl⟩

/-! ## The memory stage -/

section

variable {cv : ControlVector} {result data2 memdata : Word} {m mem' : Memory}

theorem memoryStage_of_legal (h : legal c result = true) :
    memoryStage c cv result data2 m =
      some (if cv.memRead then memRead m result else Config.unreadMemData,
        if cv.memWrite then memWrite m result data2 else m) := by
  simp [memoryStage, h]

theorem memoryStage_of_illegal (haccess : (cv.memRead || cv.memWrite) = true) (h : legal c result = false) :
    memoryStage c cv result data2 m = none := by
  simp [memoryStage, haccess, h]

/-- Settles O50: the check comes first, and both halves of the answer are of the memory before the step. -/
theorem readBeforeWrite : Obligations.ReadBeforeWrite := by
  intro c cv result data2 m hread hwrite
  refine ⟨fun h => ?_, memoryStage_of_illegal (by simp [hread])⟩
  rw [memoryStage_of_legal h, if_pos hread, if_pos hwrite]

/-- The datapath halts at the memory stage. -/
theorem datapath_of_memoryStage_none (hctl : aluDispatch c cv f.funct = some ctl)
    (h : memoryStage c cv (aluResult ctl (s.reg f.r1) (operandB cv (s.reg f.r2) (sext32 f.offset))) (s.reg f.r2)
      s.mem = none) :
    datapath c cv f s = .next (s.halt .invalidMemoryAddress) := by
  simp only [datapath, hctl, h, raiseHalt_eq]

/-- The datapath completes: writeback, the memory after the step, and the PC update. -/
theorem datapath_of_memoryStage_some (hctl : aluDispatch c cv f.funct = some ctl)
    (h : memoryStage c cv (aluResult ctl (s.reg f.r1) (operandB cv (s.reg f.r2) (sext32 f.offset))) (s.reg f.r2)
      s.mem = some (memdata, mem')) :
    datapath c cv f s = .next (((writeback cv f
      (aluResult ctl (s.reg f.r1) (operandB cv (s.reg f.r2) (sext32 f.offset))) memdata s).setMem mem').setPc
        (nextPc c cv f (zeroFlag (aluResult ctl (s.reg f.r1) (operandB cv (s.reg f.r2) (sext32 f.offset)))) s.pc)) := by
  simp only [datapath, hctl, h]

end

/-! ## The datapath by opcode -/

/-- An R-format word runs the operation the function table selects. -/
theorem datapath_register {cv : ControlVector} (hcv : controlVector 0#6 = some cv)
    (hctl : functTable c f.funct = some ctl) : datapath c cv f s = registerOp ctl f.r1 f.r2 f.r3 s := by
  obtain rfl := Option.some.inj hcv
  exact datapath_of_memoryStage_some hctl rfl

theorem datapath_load {cv : ControlVector} (hcv : controlVector 35#6 = some cv) :
    datapath c cv f s = loadWord c (effectiveAddress s f.r1 f.offset) f.r2 s := by
  obtain rfl := Option.some.inj hcv
  cases hl : legal c (effectiveAddress s f.r1 f.offset) with
  | true =>
    rw [loadWord_of_legal hl]
    exact datapath_of_memoryStage_some rfl (memoryStage_of_legal hl)
  | false =>
    rw [loadWord_of_illegal hl]
    exact datapath_of_memoryStage_none rfl (memoryStage_of_illegal rfl hl)

theorem datapath_store {cv : ControlVector} (hcv : controlVector 43#6 = some cv) :
    datapath c cv f s = storeWord c (effectiveAddress s f.r1 f.offset) (s.reg f.r2) s := by
  obtain rfl := Option.some.inj hcv
  cases hl : legal c (effectiveAddress s f.r1 f.offset) with
  | true =>
    rw [storeWord_of_legal hl]
    exact datapath_of_memoryStage_some rfl (memoryStage_of_legal hl)
  | false =>
    rw [storeWord_of_illegal hl]
    exact datapath_of_memoryStage_none rfl (memoryStage_of_illegal rfl hl)

/-- Fields that are an instruction have a control vector, and the datapath under it is the instruction's meaning. -/
theorem datapath_of_decodeFields_ok (h : decodeFields c f = .ok i) :
    ∃ cv, controlVector f.op = some cv ∧ datapath c cv f s = execUnder c i s := by
  unfold decodeFields at h
  split_ifs at h with hop hop hop hop hop hop
  case pos =>
    refine ⟨_, congrArg controlVector hop, ?_⟩
    cases hctl : functTable c f.funct with
    | none => cases h.symm.trans (decodeFunct_of_functTable_eq_none hctl)
    | some ctl =>
      obtain ⟨i', hi', hexec⟩ := decodeFunct_of_functTable_eq_some hctl
      obtain rfl := Except.ok.inj (h.symm.trans hi')
      exact (datapath_register rfl hctl).trans (hexec s).symm
  all_goals
    obtain rfl := Except.ok.inj h
    refine ⟨_, congrArg controlVector hop, ?_⟩
  · rfl
  · rfl
  · rfl
  · exact datapath_load rfl
  · exact datapath_store rfl

/-- Fields that are no instruction have no control vector, or the datapath halts at dispatch, with the cause of the
decoder's error. -/
theorem datapath_of_decodeFields_error (h : decodeFields c f = .error e) :
    controlVector f.op = none ∧ e.cause = .unsupportedOpcode ∨
    ∃ cv, controlVector f.op = some cv ∧ datapath c cv f s = .next (s.halt e.cause) := by
  unfold decodeFields at h
  split_ifs at h with h0 h2 h4 h8 h35 h43
  · refine .inr ⟨_, congrArg controlVector h0, ?_⟩
    cases hctl : functTable c f.funct with
    | none =>
      obtain rfl := Except.error.inj (h.symm.trans (decodeFunct_of_functTable_eq_none hctl))
      simp only [datapath, aluDispatch, hctl]
      rfl
    | some ctl =>
      obtain ⟨i', hi', -⟩ := decodeFunct_of_functTable_eq_some hctl
      cases h.symm.trans hi'
  · obtain rfl := Except.error.inj h
    exact .inl ⟨by simp [controlVector, h0, h2, h4, h8, h35, h43], rfl⟩

/-! ## A step of the datapath -/

theorem datapathStep_of_halted (hs : s.status = .halted) : datapathStep c s = .fault .coreHalted := by
  simp [datapathStep, hs]

theorem datapathStep_of_illegal (hs : s.status = .running) (hl : legal c s.pc = false) :
    datapathStep c s = .next (s.halt .invalidFetchAddress) := by
  simp [datapathStep, fetch, hs, hl]

theorem datapathStep_of_decode_ok (hs : s.status = .running) (hl : legal c s.pc = true)
    (hi : decode c (memRead s.mem s.pc) = .ok i) : datapathStep c s = execUnder c i s := by
  obtain ⟨cv, hcv, hdatapath⟩ := datapath_of_decodeFields_ok (s := s) hi
  simp [datapathStep, fetch, hs, hl, hcv, hdatapath]

theorem datapathStep_of_decode_error (hs : s.status = .running) (hl : legal c s.pc = true)
    (he : decode c (memRead s.mem s.pc) = .error e) : datapathStep c s = .next (s.halt e.cause) := by
  obtain ⟨hcv, hcause⟩ | ⟨cv, hcv, hdatapath⟩ := datapath_of_decodeFields_error (s := s) he
  · simp [datapathStep, fetch, hs, hl, hcv, hcause]
  · simp [datapathStep, fetch, hs, hl, hcv, hdatapath]

/-- Settles O33: the two readings agree on a halted core, at fetch, at decode, and on every instruction. -/
theorem stepIsDatapath : Obligations.StepIsDatapath := by
  intro s
  cases hs : s.status with
  | halted => rw [step_of_halted hs, datapathStep_of_halted hs]
  | running =>
    cases hl : legal hardware s.pc with
    | false => exact (fetchGuard_holds s hs hl).trans (datapathStep_of_illegal hs hl).symm
    | true =>
      cases hd : decode hardware (memRead s.mem s.pc) with
      | error e =>
        exact (haltsWith_of_decode_error ⟨hs, hl, rfl⟩ hd).trans (datapathStep_of_decode_error hs hl hd).symm
      | ok i => rw [step_of_fetches ⟨hs, hl, rfl⟩ hd, datapathStep_of_decode_ok hs hl hd, execUnder_hardware]

/-- Two configurations give the same step where they have the same MEM_BYTES, decode the word alike, and give its
instruction the same meaning. -/
theorem datapathStep_congr (hbytes : c.memBytes = c'.memBytes)
    (hdecode : decode c (memRead s.mem s.pc) = decode c' (memRead s.mem s.pc))
    (hexec : legal c s.pc = true → ∀ i, execUnder c i s = execUnder c' i s) :
    datapathStep c s = datapathStep c' s := by
  have hlegal : legal c' s.pc = legal c s.pc := by simp only [legal, hbytes]
  cases hs : s.status with
  | halted => rw [datapathStep_of_halted hs, datapathStep_of_halted hs]
  | running =>
    cases hl : legal c s.pc with
    | false => rw [datapathStep_of_illegal hs hl, datapathStep_of_illegal hs (hlegal.trans hl)]
    | true =>
      cases hd : decode c (memRead s.mem s.pc) with
      | error e =>
        rw [datapathStep_of_decode_error hs hl hd,
          datapathStep_of_decode_error hs (hlegal.trans hl) (hdecode.symm.trans hd)]
      | ok i =>
        rw [datapathStep_of_decode_ok hs hl hd,
          datapathStep_of_decode_ok hs (hlegal.trans hl) (hdecode.symm.trans hd), hexec hl]

/-! ## The parameters -/

/-- The top four bits of an address below 2^28 are clear, so the two jump modes form one target. -/
theorem jumpTarget_segment_eq_direct {p4 : Word} (h : p4.toNat < 2 ^ 28) (target : Target) :
    jumpTarget .segment p4 target = jumpTarget .direct p4 target := by
  have htop : p4.extractLsb' 28 4 = 0#4 := by
    apply BitVec.eq_of_toNat_eq
    rw [toNat_extractLsb', Nat.div_eq_of_lt h]
    rfl
  simp only [jumpTarget, htop]

/-- The address after a legal one is at most MEM_BYTES, when MEM_BYTES is a multiple of 4. -/
theorem seqPc_le_memBytes (hc : c.memBytes % 4 = 0) (hl : legal c s.pc = true) : s.seqPc.toNat ≤ c.memBytes := by
  obtain ⟨haligned, hlt⟩ := (legal_iff c s.pc).1 hl
  rw [aligned_iff] at haligned
  rw [State.seqPc, BitVec.toNat_add, show (4#32).toNat = 4 from rfl]
  omega

/-- Settles O53: `j` alone reads JUMP_MODE, and pc + 4 of a legal pc is below 2^28. -/
theorem jumpModesAgree : Obligations.JumpModesAgree := by
  intro c s hwf hbytes
  have hc : c.memBytes % 4 = 0 := by
    simp only [Config.wellFormed, Bool.and_eq_true, beq_iff_eq] at hwf
    exact hwf.1.1
  refine datapathStep_congr rfl rfl fun hl i => ?_
  have hp4 : s.seqPc.toNat < 2 ^ 28 := (seqPc_le_memBytes hc hl).trans_lt hbytes
  cases i with
  | j target => exact congrArg (Host.Outcome.next ∘ s.setPc) (jumpTarget_segment_eq_direct hp4 target)
  | add | sub | and | or | slt | sltu | addi | lw | sw | beq => rfl

/-- Settles O54: the decoder reads FUNCT43_MODE under opcode 0 and function 43 alone, and no meaning reads it. -/
theorem funct43ModeUnobserved : Obligations.Funct43ModeUnobserved := by
  intro c m s h
  refine datapathStep_congr rfl ?_ fun _ i => by cases i <;> rfl
  by_cases hop : (partition (memRead s.mem s.pc)).op = 0#6
  · have hfunct : (partition (memRead s.mem s.pc)).funct ≠ 43#6 := fun hf => h ⟨hop, hf⟩
    simp [decode, decodeFields, hop, decodeFunct, hfunct]
  · simp [decode, decodeFields, hop]

/-- Settles O55: the decoder's answer to function 43 under each mode, and what that instruction or error does. -/
theorem funct43ByMode : Obligations.Funct43ByMode := by
  intro c s r1 r2 r3 ignored hs hl hw
  have hdecode := (congrArg (decode c) hw).trans ((decode_R c r1 r2 r3 ignored 43#6).trans (decodeFunct_43 rfl))
  rw [← aluResult_sltu_eq_ite, ← aluResult_slt_eq_ite]
  cases hmode : c.funct43Mode
  all_goals rw [hmode] at hdecode
  case sltu => exact datapathStep_of_decode_ok (i := .sltu r1 r2 r3) hs hl hdecode
  case slt => exact datapathStep_of_decode_ok (i := .slt r1 r2 r3) hs hl hdecode
  case halt => exact datapathStep_of_decode_error hs hl hdecode

/-- The alignment of pc through every instruction, under every configuration. -/
theorem aligned_of_execUnder (hpc : s.pc.extractLsb' 0 2 = 0#2) (h : execUnder c i s = .next t) :
    t.pc.extractLsb' 0 2 = 0#2 := by
  have hseq := aligned_seqPc hpc
  cases i with
  | lw r1 r2 offset =>
    obtain ⟨-, rfl⟩ | ⟨-, rfl⟩ := loadWord_cases h
    · exact hseq
    · exact hpc
  | sw r1 r2 offset =>
    obtain ⟨-, rfl⟩ | ⟨-, rfl⟩ := storeWord_cases h
    · exact hseq
    · exact hpc
  | j target =>
    obtain rfl := Host.Outcome.next.inj h
    exact aligned_jumpTarget _ _ target
  | beq r1 r2 offset =>
    obtain rfl := Host.Outcome.next.inj h
    rw [State.setPc_pc]
    split
    · exact aligned_branchTarget hseq offset
    · exact hseq
  | add | sub | and | or | slt | sltu | addi =>
    obtain rfl := Host.Outcome.next.inj h
    exact hseq

/-- Settles O51: a halt leaves pc alone, and an instruction keeps it aligned. -/
theorem pcStaysAligned : Obligations.PcStaysAligned := by
  intro c s t hpc h
  rw [← aligned_iff] at hpc ⊢
  cases hs : s.status with
  | halted => rw [datapathStep_of_halted hs] at h; cases h
  | running =>
    cases hl : legal c s.pc with
    | false =>
      obtain rfl := Host.Outcome.next.inj ((datapathStep_of_illegal hs hl).symm.trans h)
      exact hpc
    | true =>
      cases hd : decode c (memRead s.mem s.pc) with
      | error e =>
        obtain rfl := Host.Outcome.next.inj ((datapathStep_of_decode_error hs hl hd).symm.trans h)
        exact hpc
      | ok i => exact aligned_of_execUnder hpc ((datapathStep_of_decode_ok hs hl hd).symm.trans h)

/-! ## ALU dispatch -/

/-- The operations the function table selects: neither SHL16 nor NOT, and SLTU by function 43 in mode SLTU. -/
theorem functTable_some_operations {funct : BitVec 6} (h : functTable c funct = some ctl) :
    ctl ≠ .shl16 ∧ ctl ≠ .not ∧ (ctl = .sltu → funct = 43#6 ∧ c.funct43Mode = .sltu) := by
  by_cases hf : funct = 43#6
  · rw [hf, functTable_43] at h
    cases hmode : c.funct43Mode with
    | sltu | slt =>
      rw [hmode] at h
      obtain rfl := Option.some.inj h
      simp [hf]
    | halt => rw [hmode] at h; cases h
  · unfold functTable at h
    split_ifs at h
    all_goals
      obtain rfl := Option.some.inj h
      simp

/-- The selectors of the control vectors. -/
theorem aluOp_of_controlVector {op : BitVec 6} {cv : ControlVector} (h : controlVector op = some cv) :
    op = 0#6 ∧ cv.aluOp = .rtype ∨ cv.aluOp = .add ∨ cv.aluOp = .sub := by
  unfold controlVector at h
  split_ifs at h with h0
  all_goals obtain rfl := Option.some.inj h
  · exact .inl ⟨h0, rfl⟩
  all_goals simp [ControlVector.idle]

/-- Settles O45: a selector other than RTYPE is ADD or SUB, and RTYPE is opcode 0's. -/
theorem unreachableAluOperations : Obligations.UnreachableAluOperations := by
  intro c op funct cv ctl hcv hctl
  obtain ⟨hop, hselect⟩ | hselect | hselect := aluOp_of_controlVector hcv
  all_goals simp only [aluDispatch, hselect] at hctl
  · obtain ⟨hshl16, hnot, hsltu⟩ := functTable_some_operations hctl
    exact ⟨hshl16, hnot, fun h => ⟨hop, hsltu h⟩⟩
  all_goals
    obtain rfl := Option.some.inj hctl
    simp

end

end Sys2Proof.Machine

/-!
SUPPORT. The ALU, the jump targets and a wrapped branch target on the integers (40_datapath.md R70, R82,
10_state.md R17).
-/

namespace Sys2Proof.Machine

section

/-! ## The ALU -/

/-- The two words of a comparison tell its truth. -/
theorem ite_truth_iff (p : Prop) [Decidable p] :
    ((if p then 1#32 else 0#32) = 1#32 ↔ p) ∧ ((if p then 1#32 else 0#32) = 0#32 ↔ ¬ p) := by
  by_cases h : p <;> simp [h]

theorem aluResult_slt_iff (a b : Word) :
    (aluResult .slt a b = 1#32 ↔ a.toInt < b.toInt) ∧ (aluResult .slt a b = 0#32 ↔ b.toInt ≤ a.toInt) := by
  rw [aluResult_slt_eq_ite, ← not_lt]
  exact ite_truth_iff _

theorem aluResult_sltu_iff (a b : Word) :
    (aluResult .sltu a b = 1#32 ↔ a.toNat < b.toNat) ∧ (aluResult .sltu a b = 0#32 ↔ b.toNat ≤ a.toNat) := by
  rw [aluResult_sltu_eq_ite, ← not_lt]
  exact ite_truth_iff _

/-- SHL16 moves the low half up. -/
theorem toNat_aluResult_shl16 (a b : Word) : (aluResult .shl16 a b).toNat = b.toNat % 2 ^ 16 * 2 ^ 16 := by
  rw [aluResult, BitVec.toNat_shiftLeft, Nat.shiftLeft_eq]
  omega

/-- Settles O46: the library's laws of each operation. -/
theorem aluArithmetic : Obligations.AluArithmetic := by
  intro a b
  obtain ⟨hslt, hnotSlt⟩ := aluResult_slt_iff a b
  obtain ⟨hsltu, hnotSltu⟩ := aluResult_sltu_iff a b
  exact ⟨BitVec.toNat_add a b, BitVec.toInt_sub, BitVec.sub_add_cancel a b, hslt, hnotSlt, hsltu, hnotSltu,
    fun _ => BitVec.getLsbD_and, fun _ => BitVec.getLsbD_or, toNat_aluResult_shl16 a b, BitVec.toNat_not, by simp⟩

/-! ## Targets -/

/-- An append as an integer. -/
theorem toNat_append_eq_add {high low : Nat} (x : BitVec high) (y : BitVec low) :
    (x ++ y).toNat = x.toNat * 2 ^ low + y.toNat := by
  rw [BitVec.toNat_append, ← Nat.shiftLeft_add_eq_or_of_lt y.isLt, Nat.shiftLeft_eq]

/-- Settles O48: the target is appended between the region and two zero bits. -/
theorem jumpTargets : Obligations.JumpTargets := by
  intro p4 target
  simp only [jumpTarget, toNat_append_eq_add, toNat_extractLsb', BitVec.toNat_ofNat]
  omega

/-- The displacement of a branch, whose offset is at least -2^15, is taken modulo 2^32. -/
theorem toNat_branchTarget_of_negative {pc : Word} {offset : Offset} (hpc : pc.toNat < 65536)
    (h : (pc.toNat : Int) + 4 + 4 * offset.toInt < 0) :
    ((branchTarget (pc + 4#32) offset).toNat : Int) = 2 ^ 32 + (pc.toNat + 4 + 4 * offset.toInt) := by
  have hoffset := BitVec.le_toInt offset
  have hsext : (sext32 offset).toInt = offset.toInt := (signExtension offset).2.2
  rw [BitVec.toInt_eq_toNat_cond] at hsext
  rw [branchTarget, branchDisp, BitVec.toNat_add, BitVec.toNat_add, BitVec.toNat_shiftLeft,
    Nat.shiftLeft_eq, show (4#32).toNat = 4 from rfl]
  split at hsext <;> omega

/-- Settles O52: the wrapped target is 2^32 plus a negative integer of at least -2^17 + 4. -/
theorem wrappedBranchIsIllegal : Obligations.WrappedBranchIsIllegal := by
  intro r1 r2 offset s t hl heq h hexec
  have hpc : s.pc.toNat < 65536 := ((legalAddresses s.pc).1 hl).2
  have htarget := toNat_branchTarget_of_negative hpc h
  have hoffset := BitVec.le_toInt offset
  have ht : t.pc = branchTarget (s.pc + 4#32) offset := by
    obtain rfl := Host.Outcome.next.inj ((exec_beq r1 r2 offset s).symm.trans hexec)
    exact if_pos heq
  rw [← ht] at htarget
  have hge : 2 ^ 32 - 2 ^ 17 + 4 ≤ t.pc.toNat := by omega
  refine ⟨hge, Bool.eq_false_of_not_eq_true fun hlegal => ?_⟩
  have hlt := ((legalAddresses t.pc).1 hlegal).2
  omega

end

end Sys2Proof.Machine
